-- ==== Sys2Proof/Word.lean ====
section
/-! DEFINITION. The value types of the core and the small enumerations of its operands (00_scope.md R6, R8, R9, R13). -/
namespace Sys2Proof

/-- An 8-bit value: a table entry, a checksum, the operand `X8` (R82). -/
abbrev Byte := BitVec 8
/-- A pulse duration or counter snapshot, `CNT_W = 16` bits (R6, D7). -/
abbrev Sample := BitVec 16
/-- A 24-bit value, the operand of the SUBST24 commands (R82). -/
abbrev Triple := BitVec 24
/-- A 32-bit value: a ring index (`IDX_W`, D8), a payload, a router value (`VAL_W`, D28), a response field. -/
abbrev Word := BitVec 32
/-- The 40 bits of a radio frame, the width of `RREG` (R28, D17). -/
abbrev Frame := BitVec 40
/-- One 64-bit command word (R80). -/
abbrev Command := BitVec 64

/-- A 256-entry table of bytes (R32). -/
structure Table where
  entries : List Byte
  complete : entries.length = 256
deriving DecidableEq, Repr

/-- The two command ports (R11, R98). -/
inductive Port where
  | producer
  | consumer
deriving DecidableEq, Repr

/-- Capture channels: 0 the wired DHT22 line, 1 the radio (R13). -/
inductive Channel where
  | dht
  | radio
deriving DecidableEq, Repr

/-- Router sources: 0 local-wired, 1 external-radio (R13). -/
inductive Source where
  | wired
  | radio
deriving DecidableEq, Repr

/-- Router kinds: 0 temperature, 1 humidity (R13). -/
inductive Kind where
  | temp
  | hum
deriving DecidableEq, Repr

/-- `INV_MODE` (R6, R31, D22). -/
inductive InvMode where
  /-- `TRUE_INVERSE`: `INV[SUBST[i]] = i`, the normative behaviour (C6). -/
  | trueInverse
  /-- `REFERENCE_ZERO`: every entry 0, the reference's observed defect (C6). -/
  | referenceZero
deriving DecidableEq, Repr

end Sys2Proof
end

