-- ==== Sys2Proof/Syntax.lean ====
section
/-! DEFINITION. The commands of the core, one constructor per row of the opcode map (30_encoding.md R84). -/
namespace Sys2Proof

/-- A command with its operands (R82, R84). -/
inductive Instr where
  /-- NOP (R150). -/
  | nop
  /-- PUSH ch, d (R152). -/
  | push (ch : Channel) (d : Sample)
  /-- CAPTURE ch, raw (R156). -/
  | capture (ch : Channel) (raw : Sample)
  /-- POP ch (R160). -/
  | pop (ch : Channel)
  /-- CRC_RAW p (R114). -/
  | crcRaw (p : Word)
  /-- CHECKSUM p (R116). -/
  | checksum (p : Word)
  /-- VERIFY p, c (R118). -/
  | verify (p : Word) (c : Byte)
  /-- SUBST_ENC b (R131). -/
  | substEnc (b : Byte)
  /-- SUBST_DEC b (R132). -/
  | substDec (b : Byte)
  /-- SUBST24_ENC v (R135). -/
  | subst24Enc (v : Triple)
  /-- SUBST24_DEC v (R136). -/
  | subst24Dec (v : Triple)
  /-- DHT_FEED d (R180). -/
  | dhtFeed (d : Sample)
  /-- DHT_CLEAR (R181). -/
  | dhtClear
  /-- DHT_DECODE (R184). -/
  | dhtDecode
  /-- RADIO_PULSE d (R210). -/
  | radioPulse (d : Sample)
  /-- FRAME_ENCODE sync, p (R240). -/
  | frameEncode (sync : Byte) (p : Word)
  /-- ROUTE src, kind, raw (R250). -/
  | route (src : Source) (kind : Kind) (raw : Word)
  /-- READ_STATE sel8, idx (R270). -/
  | readState (sel8 : Byte) (idx : Sample)
deriving DecidableEq, Repr

end Sys2Proof
end

