-- ==== Sys2Proof/WellFormed.lean ====
section
/-! DEFINITION. Which commands name something the core has, whatever its capacities (47_state_access.md R271). The operand types
already hold every operand to its field, so READ_STATE's selector and index are the only static checks. -/
namespace Sys2Proof

/-- The selectors of R271 that take no index. -/
def scalarSelectors : List Byte :=
  [0x00, 0x01, 0x02, 0x03, 0x04, 0x05, 0x08, 0x09, 0x0A, 0x0B, 0x0C] ++
  [0x10, 0x11, 0x12, 0x13, 0x14, 0x15, 0x16, 0x17, 0x30, 0x31]

/-- The selectors of R271 that take a ring slot: their range depends on `CAP[ch]`, at most `2^16`. -/
def ringSelectors : List Byte := [0x20, 0x21]

/-- A selector and an index that R271 admits in some build of the core. -/
def selectorWellFormed (sel8 : Byte) (idx : Sample) : Bool :=
  if scalarSelectors.contains sel8 then idx == 0
  else if ringSelectors.contains sel8 then true
  else sel8 == 0x22 && idx.toNat ≤ 42

/-- The static check of a command. A command that fails it is answered ILLEGAL in every build (R270). -/
def Instr.wellFormed : Instr → Bool
  | .nop => true
  | .push _ _ => true
  | .capture _ _ => true
  | .pop _ => true
  | .crcRaw _ => true
  | .checksum _ => true
  | .verify _ _ => true
  | .substEnc _ => true
  | .substDec _ => true
  | .subst24Enc _ => true
  | .subst24Dec _ => true
  | .dhtFeed _ => true
  | .dhtClear => true
  | .dhtDecode => true
  | .radioPulse _ => true
  | .frameEncode _ _ => true
  | .route _ _ _ => true
  | .readState sel8 idx => selectorWellFormed sel8 idx

end Sys2Proof
end

