-- ==== Sys2Proof/Decode.lean ====
section
/-! DEFINITION. Decoding a command word and encoding a command (30_encoding.md R80 to R84, R97, R98). -/
namespace Sys2Proof

/-- Why a word is no command (R97). -/
inductive DecodeReject where
  /-- No row of R84 matches: a reserved bit is set or the selector value is unassigned. The core answers ILLEGAL (R99). -/
  | noMatchingRow
deriving DecidableEq, Repr

/-- `OP`, bits [3:0] (R80). -/
def fieldOp (w : Command) : BitVec 4 := w.extractLsb' 0 4
/-- `SEL`, bits [7:4] (R80). -/
def fieldSel (w : Command) : BitVec 4 := w.extractLsb' 4 4
/-- `X8`, bits [15:8] (R80). -/
def fieldX8 (w : Command) : Byte := w.extractLsb' 8 8
/-- `A16`, bits [31:16] (R80). -/
def fieldA16 (w : Command) : Sample := w.extractLsb' 16 16
/-- `B32`, bits [63:32] (R80). -/
def fieldB32 (w : Command) : Word := w.extractLsb' 32 32

/-- `ch = SEL[0]` (R82, R13). -/
def channelOf (sel : BitVec 4) : Channel := if sel.getLsbD 0 then .radio else .dht
/-- `src = SEL[0]` (R82, R13). -/
def sourceOf (sel : BitVec 4) : Source := if sel.getLsbD 0 then .radio else .wired
/-- `kind = SEL[1]` (R82, R13). -/
def kindOf (sel : BitVec 4) : Kind := if sel.getLsbD 1 then .hum else .temp

/-- One row of the opcode map: a word is the row's command iff `(word & mask) == pattern` (R84). `build` assembles the operands (R82). -/
structure Row where
  pattern : Command
  mask : Command
  build : Command → Instr

/-- `(word & mask) == match` of R84. -/
def Row.accepts (r : Row) (w : Command) : Bool := w &&& r.mask == r.pattern

/-- The opcode map, R84's table row by row. -/
def opcodeMap : List Row :=
  [ ⟨0x0000000000000000, 0xFFFFFFFFFFFFFFFF, fun _ => .nop⟩,
    ⟨0x0000000000000001, 0xFFFFFFFF0000FFEF, fun w => .push (channelOf (fieldSel w)) (fieldA16 w)⟩,
    ⟨0x0000000000000002, 0xFFFFFFFF0000FFEF, fun w => .capture (channelOf (fieldSel w)) (fieldA16 w)⟩,
    ⟨0x0000000000000003, 0xFFFFFFFFFFFFFFEF, fun w => .pop (channelOf (fieldSel w))⟩,
    ⟨0x0000000000000004, 0x00000000FFFFFFFF, fun w => .crcRaw (fieldB32 w)⟩,
    ⟨0x0000000000000005, 0x00000000FFFFFFFF, fun w => .checksum (fieldB32 w)⟩ ] ++
  [ ⟨0x0000000000000006, 0x00000000FFFF00FF, fun w => .verify (fieldB32 w) (fieldX8 w)⟩,
    ⟨0x0000000000000007, 0xFFFFFFFFFFFF00FF, fun w => .substEnc (fieldX8 w)⟩,
    ⟨0x0000000000000017, 0xFFFFFFFFFFFF00FF, fun w => .substDec (fieldX8 w)⟩,
    ⟨0x0000000000000008, 0xFF000000FFFFFFFF, fun w => .subst24Enc ((fieldB32 w).extractLsb' 0 24)⟩,
    ⟨0x0000000000000018, 0xFF000000FFFFFFFF, fun w => .subst24Dec ((fieldB32 w).extractLsb' 0 24)⟩,
    ⟨0x0000000000000009, 0xFFFFFFFF0000FFFF, fun w => .dhtFeed (fieldA16 w)⟩ ] ++
  [ ⟨0x000000000000000A, 0xFFFFFFFFFFFFFFFF, fun _ => .dhtClear⟩,
    ⟨0x000000000000000B, 0xFFFFFFFFFFFFFFFF, fun _ => .dhtDecode⟩,
    ⟨0x000000000000000C, 0xFFFFFFFF0000FFFF, fun w => .radioPulse (fieldA16 w)⟩,
    ⟨0x000000000000000D, 0x00000000FFFF00FF, fun w => .frameEncode (fieldX8 w) (fieldB32 w)⟩,
    ⟨0x000000000000000E, 0x00000000FFFFFFCF, fun w => .route (sourceOf (fieldSel w)) (kindOf (fieldSel w)) (fieldB32 w)⟩,
    ⟨0x000000000000000F, 0xFFFFFFFF000000FF, fun w => .readState (fieldX8 w) (fieldA16 w)⟩ ]

/-- The row search of R97, any word to a command or a named rejection. -/
def decodeWord (w : Command) : Except DecodeReject Instr :=
  match opcodeMap.find? (fun r => r.accepts w) with
  | some r => .ok (r.build w)
  | none => .error .noMatchingRow

/-- `word = OP | (SEL << 4) | (X8 << 8) | (A16 << 16) | (B32 << 32)` (R80). -/
def packFields (op sel : BitVec 4) (x8 : Byte) (a16 : Sample) (b32 : Word) : Command :=
  b32 ++ a16 ++ x8 ++ sel ++ op

/-- `SEL` of a command whose `SEL[0]` is a channel (R82). -/
def channelSel : Channel → BitVec 4
  | .dht => 0
  | .radio => 1

/-- `SEL` of ROUTE: `src` in bit 0, `kind` in bit 1 (R82, R84). -/
def routeSel : Source → Kind → BitVec 4
  | .wired, .temp => 0
  | .radio, .temp => 1
  | .wired, .hum => 2
  | .radio, .hum => 3

/-- The word of a command, every reserved bit 0 (R80, R83, R84). -/
def encode : Instr → Command
  | .nop => packFields 0x0 0 0 0 0
  | .push ch d => packFields 0x1 (channelSel ch) 0 d 0
  | .capture ch raw => packFields 0x2 (channelSel ch) 0 raw 0
  | .pop ch => packFields 0x3 (channelSel ch) 0 0 0
  | .crcRaw p => packFields 0x4 0 0 0 p
  | .checksum p => packFields 0x5 0 0 0 p
  | .verify p c => packFields 0x6 0 c 0 p
  | .substEnc b => packFields 0x7 0 b 0 0
  | .substDec b => packFields 0x7 1 b 0 0
  | .subst24Enc v => packFields 0x8 0 0 0 (v.setWidth 32)
  | .subst24Dec v => packFields 0x8 1 0 0 (v.setWidth 32)
  | .dhtFeed d => packFields 0x9 0 0 d 0
  | .dhtClear => packFields 0xA 0 0 0 0
  | .dhtDecode => packFields 0xB 0 0 0 0
  | .radioPulse d => packFields 0xC 0 0 d 0
  | .frameEncode sync p => packFields 0xD 0 sync 0 p
  | .route src kind raw => packFields 0xE (routeSel src kind) 0 0 raw
  | .readState sel8 idx => packFields 0xF 0 sel8 idx 0

/-- The "port" column of R84: which port may issue the command (R98). -/
def acceptedOn : Port → Instr → Bool
  | _, .nop => true
  | .producer, .push _ _ => true
  | .producer, .capture _ _ => true
  | .producer, _ => false
  | .consumer, .push _ _ => false
  | .consumer, .capture _ _ => false
  | .consumer, _ => true

/-- A word of the opcode table, its bits numbered as R80 numbers them, through the decoder; bits at and above `nbits` are 0. -/
def decodeTableWord (nbits w : Nat) : Option Instr :=
  match decodeWord (BitVec.ofNat 64 (w % 2 ^ nbits)) with
  | .ok i => some i
  | .error _ => none

end Sys2Proof
end

