-- ==== Sys2Proof/Machine/Tables.lean ====
section
/-! DEFINITION. Table access and the tables the spec constructs (10_state.md R31, R32, 20_memory.md R52, 40_checksum.md R112). -/
namespace Sys2Proof.Machine

/-- `TABLE(T, i)`: entry `i` of a table (R10, R52). -/
def tableAt (t : Table) (i : Byte) : Byte :=
  t.entries[i.toNat]'(by rw [t.complete]; exact i.isLt)

/-- The bytes 0 to 255 in order, the index set of every table. -/
def allBytes : List Byte := (List.range 256).map (BitVec.ofNat 8)

/-- The table whose entry `i` is `f i`. -/
def buildTable (f : Byte → Byte) : Table :=
  ⟨allBytes.map f, by simp [allBytes]⟩

/-- The table is a permutation of 0..255, as R32 and R343 require of `REDIR` and `SUBST`: it is one-to-one on 256 entries. -/
abbrev IsPermutation (t : Table) : Prop := t.entries.Nodup

/-- One of the eight shifts of R112: most significant bit first, polynomial 0x31. -/
def crcShift (c : Byte) : Byte :=
  if c.getLsbD 7 then (c <<< 1) ^^^ 0x31 else c <<< 1

/-- `CRC_TABLE[i]` of R112. -/
def crcEntry (i : Byte) : Byte := Nat.iterate crcShift 8 i

/-- The decided `CRC_TABLE` (R112, D20). -/
def crcTable0x31 : Table := buildTable crcEntry

/-- The entry of the true inverse at `b`: the first `i` with `SUBST[i] = b` (R31, R341), 0 where there is none (log 9). -/
def inverseEntry (subst : Table) (b : Byte) : Byte :=
  match allBytes.find? (fun i => tableAt subst i == b) with
  | some i => i
  | none => 0

/-- The table with `INV[SUBST[i]] = i` (R31, R341). -/
def inverseOf (subst : Table) : Table := buildTable (inverseEntry subst)

/-- The all-zero table of `INV_MODE = REFERENCE_ZERO` (R31, C6). -/
def zeroTable : Table := buildTable fun _ => 0

/-- `INV` of a build (R31, R341, D22). -/
def inverseTable (mode : InvMode) (subst : Table) : Table :=
  match mode with
  | .trueInverse => inverseOf subst
  | .referenceZero => zeroTable

/-- `t` itself if it is a permutation, else the identity: every permutation and nothing else is a value of this (log 6). -/
def asPermutation (t : Table) : Table := if IsPermutation t then t else buildTable id

end Sys2Proof.Machine
end

