-- ==== Sys2Proof/Config.lean ====
section
/-! DEFINITION. The implementation parameters (00_scope.md R6): what the build of a core fixes, and the OPEN ones as opaque constants. -/
namespace Sys2Proof

/-- The parameters of one build of the core (R6, R343): integers 0..16 and tables of 256 bytes. -/
structure Params where
  kDht : Fin 17
  kRadio : Fin 17
  crcTable : Table
  redir : Table
  subst : Table
  invMode : InvMode
deriving DecidableEq, Repr

/-- What R343 asks of a build: `REDIR` and `SUBST` are permutations of 0..255. -/
abbrev Params.wf (cfg : Params) : Prop :=
  Machine.IsPermutation cfg.redir ∧ Machine.IsPermutation cfg.subst

/-- `K_DHT`, OPEN (R6, D9, U8; log 6). -/
opaque Config.kDht : Fin 17
/-- `K_RADIO`, OPEN (R6, D9, U8; log 6). -/
opaque Config.kRadio : Fin 17
/-- The entries of `REDIR`, OPEN (R6, D21, U6; log 6). -/
opaque Config.redirEntry : Byte → Byte
/-- The entries of `SUBST`, OPEN (R6, D22, U7; log 6). -/
opaque Config.substEntry : Byte → Byte

/-- The parameters State.reset is built with: the OPEN ones unknown, the decided ones at the spec's values (R6; log 6, log 7, log 8). -/
def Config.params : Params where
  kDht := Config.kDht
  kRadio := Config.kRadio
  crcTable := Machine.crcTable0x31
  redir := Machine.asPermutation (Machine.buildTable Config.redirEntry)
  subst := Machine.asPermutation (Machine.buildTable Config.substEntry)
  invMode := .trueInverse

end Sys2Proof
end

