-- ==== Sys2Proof/Machine/Memory.lean ====
section
/-! DEFINITION. The indexed storage arrays of the core (20_memory.md R50, R52): sparse, canonical, whole 16-bit entries. -/
namespace Sys2Proof.Machine

/-- An array of 16-bit entries: the written entries as (index, value) pairs, indices strictly rising. An entry not listed has not been
written since reset and has no value (R22, R24, R272; log 5). -/
abbrev Memory := List (Nat × Sample)

/-- The canonical form: indices strictly rising. An unlisted entry reads as no value, so no listed one can equal it. -/
abbrev Memory.wf (m : Memory) : Prop := (m.map Prod.fst).Pairwise (· < ·)

/-- Every listed index is below `n`, the number of entries the array has. -/
abbrev Memory.below (n : Nat) (m : Memory) : Prop := ∀ e ∈ m, e.1 < n

/-- `RING_READ` and the read of an `FB` entry (R52): the value last written, none where nothing has been written since reset. -/
def Memory.read : Memory → Nat → Option Sample
  | [], _ => none
  | (a, v) :: m, i => if i = a then some v else Memory.read m i

/-- `RING_WRITE` and the write of an `FB` entry (R52): the whole entry is replaced. -/
def Memory.write : Memory → Nat → Sample → Memory
  | [], i, v => [(i, v)]
  | (a, x) :: m, i, v =>
    if i < a then (i, v) :: (a, x) :: m
    else if i = a then (i, v) :: m
    else (a, x) :: Memory.write m i v

end Sys2Proof.Machine
end

