-- ==== Sys2Proof/Machine/State.lean ====
section
/-! DEFINITION. The state of the core (10_state.md), what can stop the model, and the state after reset (70_reset_and_hazards.md R340). -/
namespace Sys2Proof.Machine

/-- The status codes of a response (30_encoding.md R96): these and no other. -/
inductive Status where
  | ok
  | empty
  | noFrame
  | dropped
  | suppressed
  | forwarded
  | lengthError
  | classErrorHum
  | classErrorTemp
  | classErrorCks
  | checksumError
  | radioClassError
  | radioChecksumError
  | illegal
deriving DecidableEq, Repr

/-- A response record (R95). -/
structure Response where
  status : Status
  r0 : Word
  r1 : Word
deriving DecidableEq, Repr

/-- What reaches the core from outside, in the total order of R60: a command word on a port (R11, R97), or the edges of a reset
(R340, R343; log 10). -/
inductive Input where
  | command (port : Port) (word : Command)
  | resetBegin
  | resetEnd
deriving DecidableEq, Repr

/-- One pulse ring with its capture channel (R20 to R23): `W[ch]`, `R[ch]`, `RING[ch]`, `PREV[ch]`. -/
structure Ring where
  w : Word
  r : Word
  slots : Memory
  prev : Sample
deriving DecidableEq, Repr

/-- The DHT22 decoder (R24, R25): `FB[0..42]` and `FN`. -/
structure Dht where
  fb : Memory
  fn : Nat
deriving DecidableEq, Repr

/-- The LaCrosse decoder (R26 to R28): `RS`, `RB`, `RREG`. -/
structure Lacrosse where
  rs : Nat
  rb : Bool
  rreg : Frame
deriving DecidableEq, Repr

/-- What the router remembers of one (source, kind) pair (R30): `LAST` and `HAS`. -/
structure Remembered where
  last : Word
  has : Bool
deriving DecidableEq, Repr

/-- The four pairs of R30. -/
structure Router where
  wiredTemp : Remembered
  radioTemp : Remembered
  wiredHum : Remembered
  radioHum : Remembered
deriving DecidableEq, Repr

/-- The whole state: the constants of the build (R6, R32), the architectural state (R20 to R31), whether reset is in progress (R343, U3),
and the model's own view of the two ports (log 1, log 3, log 4). -/
structure State where
  /-- The parameters and constant tables (R6, R32). -/
  cfg : Params
  /-- `INV` (R31). -/
  inv : Table
  /-- Channel 0, the wired DHT22 ring. -/
  ring0 : Ring
  /-- Channel 1, the radio ring. -/
  ring1 : Ring
  dht : Dht
  lacrosse : Lacrosse
  router : Router
  /-- Reset is in progress: no command is defined (R343, U3). -/
  inReset : Bool
  /-- The inputs to come, in the total order of R60 (log 1). -/
  pending : List Input
  /-- The port that presented the command being executed, `P` of R97 (log 4). -/
  port : Port
  /-- The responses given, latest first, each with the port it went to (R95; log 3). No meaning reads it. -/
  responses : List (Port × Response)
deriving DecidableEq, Repr

/-- What stops the model on a value no source fixes. -/
inductive Fault where
  /-- POP and READ_STATE: a `RING` slot that no command has written since reset was read (R272, U1). Safe: hardware returns some value. -/
  | unwrittenSlot (ch : Channel) (slot : Nat)
  /-- DHT_DECODE and READ_STATE: an `FB` entry that no command has written since reset was read (R272, U2). Safe: hardware returns some value. -/
  | unwrittenEntry (entry : Nat)
deriving DecidableEq, Repr

/-- What the model does not accept. -/
inductive Refusal where
  /-- exec's arm of an instruction without a meaning. No arm raises it. Safe. -/
  | notModelled (mnemonic : String)
  /-- step: a command presented while reset is in progress (R343 "No command issued during reset is defined", U3 `refuse`). Safe. -/
  | commandDuringReset
deriving DecidableEq, Repr

/-- The answer of a meaning and of a step. -/
abbrev Result := Host.Outcome State Fault Refusal

/-- The state after reset of the build `cfg` (R340): every element at the value the table of R340 gives, the rings and the frame buffer
not written, nothing presented on the ports. -/
def State.resetWith (cfg : Params) : State where
  cfg := cfg
  inv := inverseTable cfg.invMode cfg.subst
  ring0 := ⟨0, 0, [], 0⟩
  ring1 := ⟨0, 0, [], 0⟩
  dht := ⟨[], 0⟩
  lacrosse := ⟨0, false, 0⟩
  router := ⟨⟨0, false⟩, ⟨0, false⟩, ⟨0, false⟩, ⟨0, false⟩⟩
  inReset := false
  pending := []
  port := .producer
  responses := []

/-- The state after reset (R340) of the build with the parameters of Config. -/
def State.reset : State := State.resetWith Config.params

end Sys2Proof.Machine
end

