-- ==== Sys2Proof/Machine/Ops.lean ====
section
/-! DEFINITION. The named operations every meaning is built from: the accessors and updates of State, ring access, responding, and the one
shared way an illegal command ends (10_state.md, 20_memory.md, 30_encoding.md R95 to R99). -/
namespace Sys2Proof.Machine

/-- log2 of the capacity of a ring (`K_DHT`, `K_RADIO`, R6). -/
def capBits (cfg : Params) : Channel → Nat
  | .dht => cfg.kDht.val
  | .radio => cfg.kRadio.val

/-- `CAP[ch] = 2^K` (R6, R22). -/
def capOf (cfg : Params) (ch : Channel) : Nat := 2 ^ capBits cfg ch

/-- `MASK[ch] = CAP[ch] - 1` as a 32-bit value (R6, R22, C1). -/
def maskOf (cfg : Params) (ch : Channel) : Word := BitVec.ofNat 32 (capOf cfg ch - 1)

/-- The slot a ring index selects, `n & MASK[ch]` (R51). -/
def slotOf (cfg : Params) (ch : Channel) (n : Word) : Nat := (n &&& maskOf cfg ch).toNat

/-- The number of entries of `FB` (R24). -/
def frameLength : Nat := 43

/-- The ring and capture state of channel `ch` (R20 to R23). -/
def State.ring (s : State) : Channel → Ring
  | .dht => s.ring0
  | .radio => s.ring1

/-- Replace the ring and capture state of channel `ch`. -/
def State.setRing (s : State) (ch : Channel) (q : Ring) : State :=
  match ch with
  | .dht => { s with ring0 := q }
  | .radio => { s with ring1 := q }

/-- Replace the DHT22 decoder's state. -/
def State.setDht (s : State) (d : Dht) : State := { s with dht := d }

/-- Replace the LaCrosse decoder's state. -/
def State.setLacrosse (s : State) (l : Lacrosse) : State := { s with lacrosse := l }

/-- `LAST[src][kind]` and `HAS[src][kind]` (R30). -/
def Router.pair (q : Router) : Source → Kind → Remembered
  | .wired, .temp => q.wiredTemp
  | .radio, .temp => q.radioTemp
  | .wired, .hum => q.wiredHum
  | .radio, .hum => q.radioHum

/-- Replace what the router remembers of one pair, and of no other (R256). -/
def Router.setPair (q : Router) (src : Source) (kind : Kind) (m : Remembered) : Router :=
  match src, kind with
  | .wired, .temp => { q with wiredTemp := m }
  | .radio, .temp => { q with radioTemp := m }
  | .wired, .hum => { q with wiredHum := m }
  | .radio, .hum => { q with radioHum := m }

/-- Replace the router's memory. -/
def State.setRouter (s : State) (q : Router) : State := { s with router := q }

/-- `respond(STATUS, r0, r1)`: the command's one response, on the port that issued it (R10, R95). -/
def State.respond (s : State) (status : Status) (r0 r1 : Word) : State :=
  { s with responses := (s.port, ⟨status, r0, r1⟩) :: s.responses }

/-- Take the first pending input: the rest stays pending. -/
def State.take (s : State) (rest : List Input) : State := { s with pending := rest }

/-- Present the first pending command to the decoder: `P` is its port (R97). -/
def State.present (s : State) (p : Port) (rest : List Input) : State := { s with port := p, pending := rest }

/-- `raise ILLEGAL`: the one way an error outside the command's own checks ends. The core has no trap entry (R305): the response is
ILLEGAL with both fields 0 and no state changes (R10, R99). -/
def raiseIllegal (s : State) : Result := .next (s.respond .illegal 0 0)

/-- The port check of R97: the command runs on the port R98 gives it, on the other it is illegal. -/
def onPort (p : Port) (s : State) (body : Result) : Result :=
  if s.port = p then body else raiseIllegal s

/-- The slot the next sample of ring `ch` is stored in (R152). -/
def storeSlot (ch : Channel) (s : State) : Nat := slotOf s.cfg ch (s.ring ch).w

/-- The slot the next POP of ring `ch` reads (R160). -/
def readSlot (ch : Channel) (s : State) : Nat := slotOf s.cfg ch (s.ring ch).r

/-- The store PUSH and an admitting CAPTURE share: the sample into its slot and `W[ch]` on by one, in one step (R152, R156, R62). -/
def storeSample (ch : Channel) (d : Sample) (s : State) : State :=
  s.setRing ch { s.ring ch with
    slots := Memory.write (s.ring ch).slots (storeSlot ch s) d
    w := (s.ring ch).w + 1 }

/-- `RING_READ(ch, j)` (R52). -/
def ringRead (ch : Channel) (j : Nat) (s : State) : Option Sample := Memory.read (s.ring ch).slots j

/-- `R[ch] <- R[ch] + 1` (R160). -/
def advanceRead (ch : Channel) (s : State) : State :=
  s.setRing ch { s.ring ch with r := (s.ring ch).r + 1 }

/-- `PREV[ch] <- raw` (R156). -/
def setPrev (ch : Channel) (raw : Sample) (s : State) : State :=
  s.setRing ch { s.ring ch with prev := raw }

/-- Reset begins: from here until it ends no command is defined (R343). -/
def beginReset (s : State) : State := { s with inReset := true }

/-- Reset ends: every element at the value of R340, `INV` built (R341), both rings, both decoders and the router together (R342). The build's
parameters stay, and so do the inputs to come and the responses already given, which are not state of the core (log 10). -/
def endReset (s : State) : State :=
  if s.inReset then
    { State.resetWith s.cfg with pending := s.pending, port := s.port, responses := s.responses }
  else s

end Sys2Proof.Machine
end

