-- ==== Sys2Proof/Machine/Operands.lean ====
section
/-! DEFINITION. Operand forms and value helpers: extension, byte order, bit shifting, the 24-bit reorder, the READ_STATE selectors
(00_scope.md R8, R9, 20_memory.md R53, R54, 41_substitution.md R133, R134, 47_state_access.md R271). -/
namespace Sys2Proof.Machine

/-- `zext_32(v)` (R9). -/
def zext32 {n : Nat} (v : BitVec n) : Word := v.setWidth 32

/-- `zext_32` of a one-bit value. -/
def flagWord (b : Bool) : Word := if b then 1 else 0

/-- Byte `k` of a value, bits [8k+7:8k] (R53). -/
def byteOf {n : Nat} (v : BitVec n) (k : Nat) : Byte := v.extractLsb' (8 * k) 8

/-- Shift a decoded bit into bit 0 of an accumulator, older bits left, the top bit discarded (R54, R186, R215). -/
def shiftIn {n : Nat} (acc : BitVec n) (b : Bool) : BitVec n :=
  (acc <<< 1) ||| (BitVec.ofBool b).setWidth n

/-- `reorder(v) = {v1, v2, v0}`: byte 0 stays, bytes 1 and 2 exchange (R133, D23). -/
def reorder (v : Triple) : Triple := byteOf v 1 ++ byteOf v 2 ++ byteOf v 0

/-- `subst_bytes(T, v)`: the table applied to each byte (R134). -/
def substBytes (t : Table) (v : Triple) : Triple :=
  tableAt t (byteOf v 2) ++ tableAt t (byteOf v 1) ++ tableAt t (byteOf v 0)

/-- The 24-bit encode of R135: reorder, then substitute each byte. -/
def subst24EncOf (subst : Table) (v : Triple) : Triple := substBytes subst (reorder v)

/-- The 24-bit decode of R136: substitute back each byte, then reorder. -/
def subst24DecOf (inv : Table) (v : Triple) : Triple := reorder (substBytes inv v)

/-- The elements READ_STATE can name (R271). -/
inductive Element where
  | w (ch : Channel)
  | r (ch : Channel)
  | prev (ch : Channel)
  | rs
  | rb
  | rregLow
  | rregHigh
  | fn
  | last (src : Source) (kind : Kind)
  | has (src : Source) (kind : Kind)
  | slot (ch : Channel) (j : Nat)
  | entry (i : Nat)
  | cap (ch : Channel)
deriving DecidableEq, Repr

/-- The selectors of R271 that take no index. -/
def scalarElements : List (Byte × Element) :=
  [ (0x00, .w .dht), (0x01, .r .dht), (0x02, .w .radio), (0x03, .r .radio), (0x04, .prev .dht), (0x05, .prev .radio),
    (0x08, .rs), (0x09, .rb), (0x0A, .rregLow), (0x0B, .rregHigh), (0x0C, .fn) ] ++
  [ (0x10, .last .wired .temp), (0x11, .last .radio .temp), (0x12, .last .wired .hum), (0x13, .last .radio .hum),
    (0x14, .has .wired .temp), (0x15, .has .radio .temp), (0x16, .has .wired .hum), (0x17, .has .radio .hum),
    (0x30, .cap .dht), (0x31, .cap .radio) ]

/-- `(sel8, idx)` read by R271: the element named, or none where the pair is not valid. -/
def selectElement (cfg : Params) (sel8 : Byte) (idx : Sample) : Option Element :=
  match scalarElements.lookup sel8 with
  | some e => if idx = 0 then some e else none
  | none =>
    if sel8 = 0x20 then (if idx.toNat < capOf cfg .dht then some (.slot .dht idx.toNat) else none)
    else if sel8 = 0x21 then (if idx.toNat < capOf cfg .radio then some (.slot .radio idx.toNat) else none)
    else if sel8 = 0x22 then (if idx.toNat < frameLength then some (.entry idx.toNat) else none)
    else none

/-- The value of an element in `R0` (R271), or the fault of an entry never written (R272). -/
def elementValue (s : State) : Element → Except Fault Word
  | .w ch => .ok (s.ring ch).w
  | .r ch => .ok (s.ring ch).r
  | .prev ch => .ok (zext32 (s.ring ch).prev)
  | .rs => .ok (BitVec.ofNat 32 s.lacrosse.rs)
  | .rb => .ok (flagWord s.lacrosse.rb)
  | .rregLow => .ok (s.lacrosse.rreg.extractLsb' 0 32)
  | .rregHigh => .ok (zext32 (s.lacrosse.rreg.extractLsb' 32 8))
  | .fn => .ok (BitVec.ofNat 32 s.dht.fn)
  | .last src kind => .ok (s.router.pair src kind).last
  | .has src kind => .ok (flagWord (s.router.pair src kind).has)
  | .slot ch j =>
    match ringRead ch j s with
    | some v => .ok (zext32 v)
    | none => .error (.unwrittenSlot ch j)
  | .entry i =>
    match Memory.read s.dht.fb i with
    | some v => .ok (zext32 v)
    | none => .error (.unwrittenEntry i)
  | .cap ch => .ok (BitVec.ofNat 32 (capOf s.cfg ch))

end Sys2Proof.Machine
end

