-- ==== Sys2Proof/Machine/Flags.lean ====
section
/-! DEFINITION. The conditions commands decide by. The core has no flag register (10_state.md R35): STATUS codes, windows, classifications and
the byte sum take its place (00_scope.md R7, 30_encoding.md R96, 43_dht22.md R183, R187, 44_lacrosse.md R213). -/
namespace Sys2Proof.Machine

/-- The 8-bit code of a status (R96). -/
def Status.code : Status → Byte
  | .ok => 0x00
  | .empty => 0x01
  | .noFrame => 0x02
  | .dropped => 0x03
  | .suppressed => 0x04
  | .forwarded => 0x05
  | .lengthError => 0x10
  | .classErrorHum => 0x11
  | .classErrorTemp => 0x12
  | .classErrorCks => 0x13
  | .checksumError => 0x14
  | .radioClassError => 0x20
  | .radioChecksumError => 0x21
  | .illegal => 0xFF

/-- `in(d, a, b)`: the open window `a < d < b` (R7, R10, D15). -/
def inWindow (d : Sample) (a b : Nat) : Bool := a < d.toNat && d.toNat < b

/-- `RADIO_MIN` (R6). -/
def radioMin : Nat := 400

/-- The radio noise filter: only channel 1 is filtered, and below `RADIO_MIN` is dropped (R156, C2, D12, D14). -/
def isNoise : Channel → Sample → Bool
  | .dht, _ => false
  | .radio, d => d.toNat < radioMin

/-- `classify(d)`: some true for a HIGH bit, some false for a LOW bit, none for INVALID (R183). -/
def classify (d : Sample) : Option Bool :=
  if inWindow d 110 140 then some true
  else if inWindow d 70 100 then some false
  else none

/-- `dht_sum(h, t)`: the low byte of the sum of the four bytes (R187). -/
def dhtSum (h t : BitVec 16) : Byte := byteOf h 1 + byteOf h 0 + byteOf t 1 + byteOf t 0

/-- The long-sync window of the preamble (R211). -/
def isLongSync (d : Sample) : Bool := inWindow d 1500 1800

/-- The first-bit window (R212). -/
def isFirstBit (d : Sample) : Bool := inWindow d 1200 1400

/-- `body_bit(prev, d)`: the new bit, none where `d` is in no window for the previous bit (R213). -/
def bodyBit (prev : Bool) (d : Sample) : Option Bool :=
  if prev then
    if inWindow d 400 600 then some false
    else if inWindow d 600 800 then some true
    else none
  else
    if inWindow d 600 800 then some false
    else if inWindow d 800 1000 then some true
    else none

end Sys2Proof.Machine
end

