-- ==== Sys2Proof/Machine/Checksum.lean ====
section
/-! DEFINITION. The checksum family: CRC_RAW, CHECKSUM, VERIFY (40_checksum.md). -/
namespace Sys2Proof.Machine

/-- `crc8(p)`: table-driven, most significant byte first, initial value 0, no final XOR (R111). -/
def crc8 (crcTable : Table) (p : Word) : Byte :=
  [3, 2, 1, 0].foldl (fun c k => tableAt crcTable (c ^^^ byteOf p k)) 0

/-- `checksum(p) = REDIR[crc8(p)]` (R113), the function RADIO_PULSE and FRAME_ENCODE share (R117). -/
def checksumOf (cfg : Params) (p : Word) : Byte := tableAt cfg.redir (crc8 cfg.crcTable p)

/-- CRC_RAW (R114). -/
def execCrcRaw (p : Word) (s : State) : Result :=
  onPort .consumer s (.next (s.respond .ok (zext32 (crc8 s.cfg.crcTable p)) 0))

/-- CHECKSUM (R116). -/
def execChecksum (p : Word) (s : State) : Result :=
  onPort .consumer s (.next (s.respond .ok (zext32 (checksumOf s.cfg p)) 0))

/-- VERIFY (R118): OK in both outcomes, the boolean in `R0`. -/
def execVerify (p : Word) (c : Byte) (s : State) : Result :=
  onPort .consumer s (.next (s.respond .ok (flagWord (c == checksumOf s.cfg p)) 0))

end Sys2Proof.Machine
end

