-- ==== Sys2Proof/Machine/Dht22.lean ====
section
/-! DEFINITION. The DHT22 family: DHT_FEED, DHT_CLEAR, DHT_DECODE (43_dht22.md). -/
namespace Sys2Proof.Machine

/-- What reading one field of the frame gives: its bits, FAIL (R184), or an entry never written (R272, U2). -/
inductive FieldRead (n : Nat) where
  | bits (v : BitVec n)
  | invalid
  | unwritten (entry : Nat)
deriving DecidableEq, Repr

/-- `field(first, count)` (R184, R186): classify entry after entry, each bit shifted in at bit 0, the first invalid duration fails the field. -/
def readField (fb : Memory) (first count : Nat) {n : Nat} (acc : BitVec n) : FieldRead n :=
  match count with
  | 0 => .bits acc
  | count + 1 =>
    match Memory.read fb first with
    | none => .unwritten first
    | some d =>
      match classify d with
      | none => .invalid
      | some b => readField fb (first + 1) count (shiftIn acc b)

/-- `FN` after one more duration: `min(FN + 1, 44)` (R180, R25). -/
def nextCount (fn : Nat) : Nat := min (fn + 1) 44

/-- `FB` after one more duration: entries beyond 43 are not stored (R180). -/
def feedEntry (dht : Dht) (d : Sample) : Memory :=
  if dht.fn < frameLength then Memory.write dht.fb dht.fn d else dht.fb

/-- DHT_FEED (R180): classified only at decode. -/
def execDhtFeed (d : Sample) (s : State) : Result :=
  onPort .consumer s (.next (
    (s.setDht ⟨feedEntry s.dht d, nextCount s.dht.fn⟩).respond .ok (BitVec.ofNat 32 (nextCount s.dht.fn)) 0))

/-- `FN <- 0`, `FB` kept (R181, R184). -/
def clearCount (s : State) : State := s.setDht { s.dht with fn := 0 }

/-- DHT_CLEAR (R181). -/
def execDhtClear (s : State) : Result :=
  onPort .consumer s (.next ((clearCount s).respond .ok 0 0))

/-- The last check of R184: the transmitted byte against `dht_sum(h, t)` (R187). -/
def finishFrame (h t : BitVec 16) (k : Byte) (s : State) : State :=
  if k = dhtSum h t then s.respond .ok (zext32 h) (zext32 t) else s.respond .checksumError 0 0

/-- DHT_DECODE (R182, R184, R185): length, humidity, temperature, checksum field, checksum value, in this order; `FN <- 0` whatever the outcome. -/
def execDhtDecode (s : State) : Result :=
  onPort .consumer s (
    if s.dht.fn ≠ frameLength then .next ((clearCount s).respond .lengthError 0 0)
    else
      match readField s.dht.fb 3 16 (0 : BitVec 16) with
      | .unwritten i => .fault (.unwrittenEntry i)
      | .invalid => .next ((clearCount s).respond .classErrorHum 0 0)
      | .bits h =>
        match readField s.dht.fb 19 16 (0 : BitVec 16) with
        | .unwritten i => .fault (.unwrittenEntry i)
        | .invalid => .next ((clearCount s).respond .classErrorTemp 0 0)
        | .bits t =>
          match readField s.dht.fb 35 8 (0 : Byte) with
          | .unwritten i => .fault (.unwrittenEntry i)
          | .invalid => .next ((clearCount s).respond .classErrorCks 0 0)
          | .bits k => .next (finishFrame h t k (clearCount s)))

end Sys2Proof.Machine
end

