-- ==== Sys2Proof/Machine/Encoder.lean ====
section
/-! DEFINITION. The radio frame encoder's data path: FRAME_ENCODE (45_frame_encode.md). -/
namespace Sys2Proof.Machine

/-- `v = {sync, subst24_enc(p[23:0])}`; `p[31:24]` is read by nothing (R240, D30). -/
def encodedWord (cfg : Params) (sync : Byte) (p : Word) : Word :=
  sync ++ subst24EncOf cfg.subst (p.extractLsb' 0 24)

/-- FRAME_ENCODE (R240): the word in `R0`, its checksum in `R1`. -/
def execFrameEncode (sync : Byte) (p : Word) (s : State) : Result :=
  onPort .consumer s (.next (
    s.respond .ok (encodedWord s.cfg sync p) (zext32 (checksumOf s.cfg (encodedWord s.cfg sync p)))))

end Sys2Proof.Machine
end

