-- ==== Sys2Proof/Machine/Radio.lean ====
section
/-! DEFINITION. The LaCrosse decoder: RADIO_PULSE (44_lacrosse.md). -/
namespace Sys2Proof.Machine

/-- `p = reg[39:8]`, the payload of a completed frame (R218). -/
def framePayload (reg : Frame) : Word := reg.extractLsb' 8 32

/-- `c = reg[7:0]`, the received checksum of a completed frame (R218). -/
def frameChecksum (reg : Frame) : Byte := reg.extractLsb' 0 8

/-- A preamble pulse, `RS` in 0..2 (R211): `RB` and `RREG` are neither read nor written. -/
def preamblePulse (d : Sample) (s : State) : State :=
  if isLongSync d then (s.setLacrosse { s.lacrosse with rs := s.lacrosse.rs + 1 }).respond .noFrame 0 0
  else (s.setLacrosse { s.lacrosse with rs := 0 }).respond .radioClassError 0 0

/-- The first-bit pulse, `RS = 3` (R212): a 1 seeds the accumulator, a miss leaves `RREG`. -/
def firstBitPulse (d : Sample) (s : State) : State :=
  if isFirstBit d then (s.setLacrosse ⟨4, true, 1⟩).respond .noFrame 0 0
  else (s.setLacrosse { s.lacrosse with rs := 0, rb := false }).respond .radioClassError 0 0

/-- The completion step (R218): the decoder's state is already back at 0; the payload is returned as received (R137, R219). -/
def completeFrame (reg : Frame) (s : State) : State :=
  if frameChecksum reg = checksumOf s.cfg (framePayload reg) then s.respond .ok (framePayload reg) 0
  else s.respond .radioChecksumError 0 0

/-- A body pulse that decodes the bit `nb` (R215), completing the frame where it is the 43rd pulse (R218, C5). -/
def bodyPulse (nb : Bool) (s : State) : State :=
  if s.lacrosse.rs + 1 = 43 then
    completeFrame (shiftIn s.lacrosse.rreg nb) (s.setLacrosse ⟨0, nb, shiftIn s.lacrosse.rreg nb⟩)
  else (s.setLacrosse ⟨s.lacrosse.rs + 1, nb, shiftIn s.lacrosse.rreg nb⟩).respond .noFrame 0 0

/-- RADIO_PULSE (R210): a failing pulse resets and is not looked at again (R214, R220). -/
def execRadioPulse (d : Sample) (s : State) : Result :=
  onPort .consumer s (.next (
    if s.lacrosse.rs < 3 then preamblePulse d s
    else if s.lacrosse.rs = 3 then firstBitPulse d s
    else
      match bodyBit s.lacrosse.rb d with
      | none => (s.setLacrosse { s.lacrosse with rs := 0, rb := false }).respond .radioClassError 0 0
      | some nb => bodyPulse nb s))

end Sys2Proof.Machine
end

