-- ==== Sys2Proof/Machine/ReadBack.lean ====
section
/-! DEFINITION. State read-back: READ_STATE (47_state_access.md). -/
namespace Sys2Proof.Machine

/-- READ_STATE (R270 to R273): no state written; ILLEGAL for a pair R271 does not admit; a slot or entry never written faults (R272). -/
def execReadState (sel8 : Byte) (idx : Sample) (s : State) : Result :=
  onPort .consumer s (
    match selectElement s.cfg sel8 idx with
    | none => raiseIllegal s
    | some e =>
      match elementValue s e with
      | .ok v => .next (s.respond .ok v 0)
      | .error f => .fault f)

end Sys2Proof.Machine
end

