-- ==== Sys2Proof/Machine/Ring.lean ====
section
/-! DEFINITION. The ring family: NOP, PUSH, CAPTURE, POP (42_ring_buffer.md). -/
namespace Sys2Proof.Machine

/-- NOP (R150): accepted on both ports. -/
def execNop (s : State) : Result := .next (s.respond .ok 0 0)

/-- PUSH (R152, R154): always succeeds; `R[ch]` is neither read nor written. -/
def execPush (ch : Channel) (d : Sample) (s : State) : Result :=
  onPort .producer s (.next ((storeSample ch d s).respond .ok 0 0))

/-- `(raw - PREV[ch]) mod 2^16` (R156). -/
def captureDelta (ch : Channel) (raw : Sample) (s : State) : Sample := raw - (s.ring ch).prev

/-- CAPTURE (R156): the duration since the previous snapshot, `PREV[ch]` updated on every event (D13), the sample dropped or stored. -/
def execCapture (ch : Channel) (raw : Sample) (s : State) : Result :=
  onPort .producer s (.next (
    if isNoise ch (captureDelta ch raw s) then
      (setPrev ch raw s).respond .dropped (zext32 (captureDelta ch raw s)) 0
    else
      (storeSample ch (captureDelta ch raw s) (setPrev ch raw s)).respond .ok (zext32 (captureDelta ch raw s)) 0))

/-- POP (R160, R161): EMPTY iff `R[ch] == W[ch]` (C3, D10), else the slot's current content (R64) and `R[ch]` on by one. -/
def execPop (ch : Channel) (s : State) : Result :=
  onPort .consumer s (
    if (s.ring ch).r = (s.ring ch).w then .next (s.respond .empty 0 0)
    else
      match ringRead ch (readSlot ch s) s with
      | some d => .next ((advanceRead ch s).respond .ok (zext32 d) 0)
      | none => .fault (.unwrittenSlot ch (readSlot ch s)))

end Sys2Proof.Machine
end

