-- ==== Sys2Proof/Machine/Routing.lean ====
section
/-! DEFINITION. The reading router: ROUTE (46_router.md). -/
namespace Sys2Proof.Machine

/-- `TEMP_OFFSET` (R6). -/
def tempOffset : Word := 500

/-- `HUM_SCALE` (R6). -/
def humScale : Word := 10

/-- `correct(src, kind, raw)`, modulo 2^32 (R251, R252). -/
def corrected : Source → Kind → Word → Word
  | .radio, .temp, raw => raw - tempOffset
  | .radio, .hum, raw => raw * humScale
  | .wired, _, raw => raw

/-- `zext_32({kind, src})` (R250). -/
def pairCode : Source → Kind → Word
  | .wired, .temp => 0
  | .radio, .temp => 1
  | .wired, .hum => 2
  | .radio, .hum => 3

/-- ROUTE (R250, R253): forwarded on the pair's first value and on every change of the corrected value, else suppressed. -/
def execRoute (src : Source) (kind : Kind) (raw : Word) (s : State) : Result :=
  onPort .consumer s (.next (
    if (s.router.pair src kind).has = false ∨ corrected src kind raw ≠ (s.router.pair src kind).last then
      (s.setRouter (s.router.setPair src kind ⟨corrected src kind raw, true⟩)).respond .forwarded (corrected src kind raw) (pairCode src kind)
    else s.respond .suppressed (corrected src kind raw) (pairCode src kind)))

end Sys2Proof.Machine
end

