-- ==== Sys2Proof/Machine/Substitution.lean ====
section
/-! DEFINITION. The substitution family: SUBST_ENC, SUBST_DEC, SUBST24_ENC, SUBST24_DEC (41_substitution.md). -/
namespace Sys2Proof.Machine

/-- SUBST_ENC (R131). -/
def execSubstEnc (b : Byte) (s : State) : Result :=
  onPort .consumer s (.next (s.respond .ok (zext32 (tableAt s.cfg.subst b)) 0))

/-- SUBST_DEC (R132). -/
def execSubstDec (b : Byte) (s : State) : Result :=
  onPort .consumer s (.next (s.respond .ok (zext32 (tableAt s.inv b)) 0))

/-- SUBST24_ENC (R135). -/
def execSubst24Enc (v : Triple) (s : State) : Result :=
  onPort .consumer s (.next (s.respond .ok (zext32 (subst24EncOf s.cfg.subst v)) 0))

/-- SUBST24_DEC (R136). -/
def execSubst24Dec (v : Triple) (s : State) : Result :=
  onPort .consumer s (.next (s.respond .ok (zext32 (subst24DecOf s.inv v)) 0))

end Sys2Proof.Machine
end

