-- ==== Sys2Proof/Machine/Dispatch.lean ====
section
/-! DEFINITION. The dispatch of a command to its meaning, one arm per row of the opcode map (30_encoding.md R84, R97). -/
namespace Sys2Proof.Machine

/-- Execute one command on the port `s.port`. -/
def exec (i : Instr) (s : State) : Host.Outcome State Fault Refusal :=
  match i with
  | .nop => Sys2Proof.Machine.execNop s
  | .push ch d => Sys2Proof.Machine.execPush ch d s
  | .capture ch raw => Sys2Proof.Machine.execCapture ch raw s
  | .pop ch => Sys2Proof.Machine.execPop ch s
  | .crcRaw p => Sys2Proof.Machine.execCrcRaw p s
  | .checksum p => Sys2Proof.Machine.execChecksum p s
  | .verify p c => Sys2Proof.Machine.execVerify p c s
  | .substEnc b => Sys2Proof.Machine.execSubstEnc b s
  | .substDec b => Sys2Proof.Machine.execSubstDec b s
  | .subst24Enc v => Sys2Proof.Machine.execSubst24Enc v s
  | .subst24Dec v => Sys2Proof.Machine.execSubst24Dec v s
  | .dhtFeed d => Sys2Proof.Machine.execDhtFeed d s
  | .dhtClear => Sys2Proof.Machine.execDhtClear s
  | .dhtDecode => Sys2Proof.Machine.execDhtDecode s
  | .radioPulse d => Sys2Proof.Machine.execRadioPulse d s
  | .frameEncode sync p => Sys2Proof.Machine.execFrameEncode sync p s
  | .route src kind raw => Sys2Proof.Machine.execRoute src kind raw s
  | .readState sel8 idx => Sys2Proof.Machine.execReadState sel8 idx s

end Sys2Proof.Machine
end

