-- ==== Sys2Proof/Machine/Step.lean ====
section
/-! DEFINITION. One step of the core: the next input of the total order (20_memory.md R60), decoded by R97 and executed. -/
namespace Sys2Proof.Machine

/-- Decode a command word and execute it, ILLEGAL where no row matches (R97). -/
def runWord (w : Command) (s : State) : Result :=
  match decodeWord w with
  | .ok i => exec i s
  | .error _ => raiseIllegal s

/-- One step: the first pending input is performed whole (R11, R60). With nothing pending the core is idle and keeps its state (log 2). A command
during reset is refused (U3). -/
def step (s : State) : Host.Outcome State Fault Refusal :=
  match s.pending with
  | [] => .next s
  | .resetBegin :: rest => .next (beginReset (s.take rest))
  | .resetEnd :: rest => .next (endReset (s.take rest))
  | .command p w :: rest =>
    if s.inReset then .refused .commandDuringReset else runWord w (s.present p rest)

/-- A port that may issue the word: the producer for PUSH and CAPTURE, else the consumer (R98). -/
def portFor (w : Command) : Port :=
  match decodeWord w with
  | .ok i => if acceptedOn .consumer i then .consumer else .producer
  | .error _ => .consumer

/-- The state in which the very next step performs the table word `w`: reset is over and the word is first in the order, on a port that
may issue it. The core fetches nothing (R34): its commands are presented from outside (log 11). -/
def State.withFetchWord (s : State) (nbits w : Nat) : State :=
  { s with
    inReset := false
    pending := .command (portFor (BitVec.ofNat 64 (w % 2 ^ nbits))) (BitVec.ofNat 64 (w % 2 ^ nbits)) :: s.pending }

end Sys2Proof.Machine
end

