-- ==== Sys2Proof/Safety.lean ====
section
/-! DEFINITION. The terms claims are stated in: the invariant of the core, runs of commands in a total order, the FIFO and the pulse and frame
shapes the spec's properties speak of. -/
namespace Sys2Proof.Machine

/-! ### The invariant -/

/-- A ring is sound (R22, R62, U1): its slots are canonical and inside the ring, and every slot an unread index can select has been written:
either every slot has, or the write index has not yet gone round, the read index is not past it, and the slots below it have. -/
structure RingInv (cap : Nat) (q : Ring) : Prop where
  canonical : Memory.wf q.slots
  inside : Memory.below cap q.slots
  published :
    (∀ j, j < cap → (Memory.read q.slots j).isSome) ∨
    (q.w.toNat < cap ∧ q.r.toNat ≤ q.w.toNat ∧ ∀ j, j < q.w.toNat → (Memory.read q.slots j).isSome)

/-- The DHT22 decoder is sound (R24, R25, U2): the entries the count speaks of have been written. -/
structure DhtInv (d : Dht) : Prop where
  canonical : Memory.wf d.fb
  inside : Memory.below frameLength d.fb
  count : d.fn ≤ 44
  fed : ∀ i, i < min d.fn frameLength → (Memory.read d.fb i).isSome

/-- The LaCrosse decoder is sound (R26, R27, R28): `RS` never holds 43 (C5); in the body the accumulator holds the bits decoded since the
first bit, which was a 1 (R212, R217), and `RB` is the last of them. -/
structure LacrosseInv (l : Lacrosse) : Prop where
  range : l.rs ≤ 42
  seeded : 4 ≤ l.rs → l.rreg.toNat / 2 ^ (l.rs - 4) = 1
  lastBit : 4 ≤ l.rs → l.rb = l.rreg.getLsbD 0

/-- The invariant of the core: a build R343 allows, `INV` as R341 builds it, both rings, both decoders and the router's memory sound
(`LAST` is 0 until the pair is first forwarded, R30, R340). -/
structure State.Inv (s : State) : Prop where
  build : s.cfg.wf
  inverse : s.inv = inverseTable s.cfg.invMode s.cfg.subst
  rings : ∀ ch, RingInv (capOf s.cfg ch) (s.ring ch)
  dht : DhtInv s.dht
  lacrosse : LacrosseInv s.lacrosse
  pairs : ∀ src kind, (s.router.pair src kind).has = false → (s.router.pair src kind).last = 0

/-! ### Runs -/

/-- Perform commands, each on its port, in the given total order (R60). -/
def perform : List (Port × Instr) → State → Result
  | [], s => .next s
  | (p, i) :: rest, s =>
    match exec i { s with port := p } with
    | .next t => perform rest t
    | .fault f => .fault f
    | .refused r => .refused r

/-- The inputs that present these commands. -/
def commandInputs (cs : List (Port × Instr)) : List Input := cs.map fun c => .command c.1 (encode c.2)

/-- The consumer feeds durations to the radio decoder. -/
def radioPulses (ds : List Sample) : List (Port × Instr) := ds.map fun d => (.consumer, .radioPulse d)

/-! ### Rings as queues -/

/-- What the unread indices of a ring select, oldest first (R63). -/
def unread (cfg : Params) (ch : Channel) (q : Ring) : List (Option Sample) :=
  (List.range (q.w - q.r).toNat).map fun k => Memory.read q.slots (slotOf cfg ch (q.r + BitVec.ofNat 32 k))

/-- One use of a ring: a sample stored, or a sample asked for. -/
inductive RingOp where
  | push (d : Sample)
  | pop
deriving DecidableEq, Repr

/-- The command of a ring use, on the port that may issue it (R98). -/
def RingOp.command (ch : Channel) : RingOp → Port × Instr
  | .push d => (.producer, .push ch d)
  | .pop => (.consumer, .pop ch)

/-- The condition of R63: starting with `n` unread samples, at most `cap` are unread at every POP. -/
def drainedInTime (cap : Nat) : Nat → List RingOp → Prop
  | _, [] => True
  | n, .push _ :: ops => drainedInTime cap (n + 1) ops
  | n, .pop :: ops => n ≤ cap ∧ drainedInTime cap (n - 1) ops

/-- The answers of an unbounded first-in first-out queue that holds `q`, oldest first. -/
def fifoAnswers : List Sample → List RingOp → List (Port × Response)
  | _, [] => []
  | q, .push d :: ops => (.producer, ⟨.ok, 0, 0⟩) :: fifoAnswers (q ++ [d]) ops
  | [], .pop :: ops => (.consumer, ⟨.empty, 0, 0⟩) :: fifoAnswers [] ops
  | d :: q, .pop :: ops => (.consumer, ⟨.ok, zext32 d, 0⟩) :: fifoAnswers q ops

/-- Of `n` samples stored from index 0, the largest index below `n` that shares a slot with index `k` in a ring of `cap` slots (R64). -/
def latestIndex (n cap k : Nat) : Nat := k + (n - 1 - k) / cap * cap

/-! ### Pulses and frames -/

/-- The durations carry the 40-bit frame: three long-sync pulses, a first bit of 1, then each lower bit in the window the bit before it
selects (R211 to R216). -/
structure CarriesFrame (f : Frame) (ds : List Sample) : Prop where
  length : ds.length = 43
  sync : ∀ i, i < 3 → isLongSync (ds.getD i 0) = true
  first : isFirstBit (ds.getD 3 0) = true ∧ f.getLsbD 39 = true
  body : ∀ k, k < 39 → bodyBit (f.getLsbD (39 - k)) (ds.getD (4 + k) 0) = some (f.getLsbD (38 - k))

/-- The duration R223 gives a body bit `b` after the bit `prev`. -/
def canonicalDuration (prev b : Bool) : Sample :=
  if prev then (if b then 700 else 500) else (if b then 900 else 700)

/-- The canonical pulse sequence of a frame (R223). -/
def canonicalPulses (f : Frame) : List Sample :=
  [1600, 1600, 1600, 1300] ++
    (List.range 39).map fun k => canonicalDuration (f.getLsbD (39 - k)) (f.getLsbD (38 - k))

/-- The frame buffer entries from `first` on encode the bits of `v`, most significant first (R183, R186). -/
def CarriesBits (fb : Memory) (first : Nat) {n : Nat} (v : BitVec n) : Prop :=
  ∀ i, i < n → ∃ d, Memory.read fb (first + i) = some d ∧ classify d = some (v.getMsbD i)

/-- All `n` entries from `first` on are written, and some one of them is in neither window (R183, R189). -/
def HoldsInvalid (fb : Memory) (first n : Nat) : Prop :=
  (∀ i, i < n → (Memory.read fb (first + i)).isSome) ∧
  ∃ i d, i < n ∧ Memory.read fb (first + i) = some d ∧ classify d = none

/-- One step of the CRC of R111 taken bit by bit: polynomial 0x31, most significant bit first. -/
def crcBit (c : Byte) (b : Bool) : Byte :=
  if c.getLsbD 7 ^^ b then (c <<< 1) ^^^ 0x31 else c <<< 1

/-- The CRC of a 32-bit value bit by bit, bit 31 first, from 0: the remainder the polynomial 0x31 leaves, no table. -/
def crcSerial (p : Word) : Byte := (List.range 32).foldl (fun c k => crcBit c (p.getLsbD (31 - k))) 0

/-- What the fields may hold for the reserved bits of R83 to be 0 and the selector to be one R84 assigns, row by row of R84. -/
def lawfulFields (op sel : BitVec 4) (x8 : Byte) (a16 : Sample) (b32 : Word) : Prop :=
  match op.toNat with
  | 0x0 | 0xA | 0xB => sel = 0 ∧ x8 = 0 ∧ a16 = 0 ∧ b32 = 0
  | 0x1 | 0x2 => sel.toNat ≤ 1 ∧ x8 = 0 ∧ b32 = 0
  | 0x3 => sel.toNat ≤ 1 ∧ x8 = 0 ∧ a16 = 0 ∧ b32 = 0
  | 0x4 | 0x5 => sel = 0 ∧ x8 = 0 ∧ a16 = 0
  | 0x6 | 0xD => sel = 0 ∧ a16 = 0
  | 0x7 => sel.toNat ≤ 1 ∧ a16 = 0 ∧ b32 = 0
  | 0x8 => sel.toNat ≤ 1 ∧ x8 = 0 ∧ a16 = 0 ∧ byteOf b32 3 = 0
  | 0x9 | 0xC => sel = 0 ∧ x8 = 0 ∧ b32 = 0
  | 0xE => sel.toNat ≤ 3 ∧ x8 = 0 ∧ a16 = 0
  | _ => sel = 0 ∧ b32 = 0

/-- The word breaks neither R83 nor the selector values of R84. -/
def lawfulWord (w : Command) : Prop := lawfulFields (fieldOp w) (fieldSel w) (fieldX8 w) (fieldA16 w) (fieldB32 w)

/-- The statuses each command may answer with on the port that may issue it (R96). -/
def statusesOf : Instr → List Status
  | .capture _ _ => [.ok, .dropped]
  | .pop _ => [.ok, .empty]
  | .dhtDecode => [.ok, .lengthError, .classErrorHum, .classErrorTemp, .classErrorCks, .checksumError]
  | .radioPulse _ => [.ok, .noFrame, .radioClassError, .radioChecksumError]
  | .route _ _ _ => [.forwarded, .suppressed]
  | .readState _ _ => [.ok, .illegal]
  | .nop => [.ok]
  | .push _ _ => [.ok]
  | .crcRaw _ => [.ok]
  | .checksum _ => [.ok]
  | .verify _ _ => [.ok]
  | .substEnc _ => [.ok]
  | .substDec _ => [.ok]
  | .subst24Enc _ => [.ok]
  | .subst24Dec _ => [.ok]
  | .dhtFeed _ => [.ok]
  | .dhtClear => [.ok]
  | .frameEncode _ _ => [.ok]

end Sys2Proof.Machine
end

