-- ==== Sys2Proof/Certificates/Slice0/Obligations.lean ====
section
/-! DEFINITION. The statements about the core, from the numbered rules of spec/ file by file. A statement whose docstring says
"the spec's inference" formalises a sentence the spec marks as derived; one that rests on the model's own choice names its log entry. -/
open Sys2Proof Sys2Proof.Machine

/-! ### Encoding (30_encoding.md) -/

/-- R80, R82, R84: no bit of an encoding is dropped; every command of every operand value comes back from its word. -/
def Obligations.EncodingRoundTrip : Prop :=
  ∀ i : Instr, decodeWord (encode i) = .ok i

/-- R83, R84: every word has at most one meaning, the reserved bits being 0: a word that decodes is the word of its command. -/
def Obligations.DecodedWordIsItsEncoding : Prop :=
  ∀ (w : Command) (i : Instr), decodeWord w = .ok i → encode i = w

/-- The spec's inference in R97, "At most one row matches any word", for every two rows of R84. -/
def Obligations.AtMostOneRowMatches : Prop :=
  opcodeMap.Pairwise fun a b => ∀ w : Command, ¬ (a.accepts w = true ∧ b.accepts w = true)

/-- R83, R97, R100: the words rejected are exactly those with a reserved bit set or a selector R84 does not assign. -/
def Obligations.RejectedWordsAreTheReserved : Prop :=
  ∀ w : Command, decodeWord w = .error .noMatchingRow ↔ ¬ lawfulWord w

/-- Words of 95_test_vectors.md, one per family, each the command it stands for (a sanity statement). -/
def Obligations.SpecWordsDecode : Prop :=
  decodeWord 0x00000000000A0011 = .ok (.push .radio 10) ∧
  decodeWord 0x123456780000C806 = .ok (.verify 0x12345678 0xC8) ∧
  decodeWord 0x0045236700000018 = .ok (.subst24Dec 0x452367) ∧
  decodeWord 0x0000000000A00009 = .ok (.dhtFeed 160) ∧
  decodeWord 0x000000000640000C = .ok (.radioPulse 1600) ∧
  decodeWord 0x0012345600009A0D = .ok (.frameEncode 0x9A 0x00123456) ∧
  decodeWord 0x000001900000001E = .ok (.route .radio .temp 400) ∧
  decodeWord 0x00000000002B220F = .ok (.readState 0x22 43)

/-! ### Steps, runs and reset (00_scope.md, 20_memory.md, 70_reset_and_hazards.md) -/

/-- R11, R60, R97: the step with a command first in the order is that command executed on its port; the command is taken from the order. -/
def Obligations.StepRunsDecodedCommand : Prop :=
  ∀ (s : State) (p : Port) (w : Command) (rest : List Input) (i : Instr),
    s.pending = .command p w :: rest → s.inReset = false → decodeWord w = .ok i →
    step s = exec i { s with port := p, pending := rest }

/-- R60, R61: commands presented in a total order are performed one at a time in that order, whichever the order (any interleaving of two
port streams is such a list). The list is the model's own form of the order (log 1). -/
def Obligations.RunPerformsInOrder : Prop :=
  ∀ (cs : List (Port × Instr)) (rest : List Input) (s : State),
    s.inReset = false → s.pending = commandInputs cs ++ rest →
    Host.Core.run Sys2Proof.core cs.length s = perform cs { s with pending := rest }

/-- R340, R342, R343, U3: the edges of a reset and what lies between. When reset ends every element has the value of R340, the build's
constants stay. The two edges, and the idle step with nothing presented, are the model's own form (log 2, log 10). -/
def Obligations.ResetInputsReinitialise : Prop :=
  ∀ (s : State) (rest : List Input),
    (s.pending = .resetBegin :: rest → step s = .next { s with inReset := true, pending := rest }) ∧
    (s.pending = .resetEnd :: rest → s.inReset = true →
      step s = .next { State.resetWith s.cfg with pending := rest, port := s.port, responses := s.responses }) ∧
    (s.pending = .resetEnd :: rest → s.inReset = false → step s = .next { s with pending := rest }) ∧
    (∀ p w, s.pending = .command p w :: rest → s.inReset = true → step s = .refused .commandDuringReset) ∧
    (s.pending = [] → step s = .next s)

/-- The table of R340, for every build: indices, snapshots, counts, decoder and router memory at 0, and no slot or entry written
(unspecified, U1, U2). -/
def Obligations.ResetLeavesTheTabledValues : Prop :=
  ∀ cfg : Params,
    (∀ ch, ((State.resetWith cfg).ring ch).w = 0 ∧ ((State.resetWith cfg).ring ch).r = 0 ∧ ((State.resetWith cfg).ring ch).prev = 0 ∧
      ∀ j, Memory.read ((State.resetWith cfg).ring ch).slots j = none) ∧
    (∀ j, Memory.read (State.resetWith cfg).dht.fb j = none) ∧
    (State.resetWith cfg).dht.fn = 0 ∧
    (State.resetWith cfg).lacrosse = ⟨0, false, 0⟩ ∧
    (∀ src kind, (State.resetWith cfg).router.pair src kind = ⟨0, false⟩) ∧
    (State.resetWith cfg).cfg = cfg ∧
    State.reset = State.resetWith Config.params

/-- R341, R31: reset builds `INV` with `INV[SUBST[i]] = i` for every `i`; under `REFERENCE_ZERO` every entry is 0. -/
def Obligations.ResetBuildsInverseTable : Prop :=
  ∀ cfg : Params, cfg.wf →
    (cfg.invMode = .trueInverse → ∀ i : Byte, tableAt (State.resetWith cfg).inv (tableAt cfg.subst i) = i) ∧
    (cfg.invMode = .referenceZero → ∀ b : Byte, tableAt (State.resetWith cfg).inv b = 0)

/-- The invariant holds after reset: of the machine's own build, and of every build R343 allows. -/
def Obligations.ResetMeetsInvariant : Prop :=
  State.reset.Inv ∧ ∀ cfg : Params, cfg.wf → (State.resetWith cfg).Inv

/-- Every step keeps the invariant, whatever the input: canonical storage, published slots (R62), `RS` in 0..42 (R26, C5), `FN` in 0..44 (R25), the
accumulator's shape, `INV` as built (R69), the router's memory (R30). -/
def Obligations.StepKeepsInvariant : Prop :=
  ∀ s t : State, s.Inv → step s = .next t → t.Inv

/-- The spec's inference in U1 and U2, with R301: from a state that meets the invariant the model stops at one command only, a READ_STATE of a
slot or entry never written (R272; log 5), and refuses only a command during reset (U3; log 10). POP and DHT_DECODE never stop it. -/
def Obligations.OnlyUnwrittenReadBackStops : Prop :=
  ∀ s : State, s.Inv →
    (∀ f, step s = .fault f → ∃ sel8 idx rest,
      s.pending = .command .consumer (encode (.readState sel8 idx)) :: rest ∧
      ((sel8 = 0x20 ∧ Memory.read s.ring0.slots idx.toNat = none) ∨
       (sel8 = 0x21 ∧ Memory.read s.ring1.slots idx.toNat = none) ∨
       (sel8 = 0x22 ∧ Memory.read s.dht.fb idx.toNat = none))) ∧
    (∀ r, step s = .refused r → s.inReset = true ∧ ∃ p w rest, s.pending = .command p w :: rest)

/-- R31, R32, R69: no step writes the constants, and none changes `INV` (reset builds the same table again). -/
def Obligations.TablesNeverChange : Prop :=
  ∀ s t : State, s.Inv → step s = .next t → t.cfg = s.cfg ∧ t.inv = s.inv

/-! ### Ports, responses, errors (30_encoding.md, 60_exceptions.md) -/

/-- R99: a word of no row, a command on the wrong port, and a READ_STATE pair R271 does not admit change no state and respond
`(ILLEGAL, 0, 0)`; nothing records them. -/
def Obligations.IllegalCommandsChangeNothing : Prop :=
  ∀ s : State,
    (∀ p w rest, s.pending = .command p w :: rest → s.inReset = false → decodeWord w = .error .noMatchingRow →
      step s = .next { s with pending := rest, port := p, responses := (p, ⟨.illegal, 0, 0⟩) :: s.responses }) ∧
    (∀ i, acceptedOn s.port i = false →
      exec i s = .next { s with responses := (s.port, ⟨.illegal, 0, 0⟩) :: s.responses }) ∧
    (∀ sel8 idx, selectElement s.cfg sel8 idx = none →
      exec (.readState sel8 idx) s = .next { s with responses := (s.port, ⟨.illegal, 0, 0⟩) :: s.responses })

/-- R98: the producer port accepts only NOP, PUSH and CAPTURE, the consumer port every command except PUSH and CAPTURE: a command on a port that
does not accept it answers ILLEGAL; on a port that accepts it no command does, but a READ_STATE whose pair R271 does not admit. -/
def Obligations.PortsAcceptTheirCommands : Prop :=
  ∀ (i : Instr) (s t : State), exec i s = .next t →
    (s.port = .producer → (∀ ch d, i ≠ .push ch d) → (∀ ch d, i ≠ .capture ch d) → i ≠ .nop →
      t.responses = (.producer, ⟨.illegal, 0, 0⟩) :: s.responses) ∧
    (s.port = .consumer → ((∃ ch d, i = .push ch d) ∨ ∃ ch d, i = .capture ch d) →
      t.responses = (.consumer, ⟨.illegal, 0, 0⟩) :: s.responses) ∧
    (((s.port = .producer ∧ (i = .nop ∨ (∃ ch d, i = .push ch d) ∨ ∃ ch d, i = .capture ch d)) ∨
      (s.port = .consumer ∧ (∀ ch d, i ≠ .push ch d) ∧ ∀ ch d, i ≠ .capture ch d)) →
      (∀ sel8 idx, i = .readState sel8 idx → (selectElement s.cfg sel8 idx).isSome) →
      ∃ r, t.responses = (s.port, r) :: s.responses ∧ r.status ≠ .illegal)

/-- The spec's inference R38 (ownership): a producer command writes only `W`, `RING` and `PREV`; a consumer command writes none of them, nor
does either write the constants or `INV`. -/
def Obligations.PortsOwnTheirState : Prop :=
  ∀ (i : Instr) (s t : State), exec i s = .next t →
    (s.port = .producer →
      (∀ ch, (t.ring ch).r = (s.ring ch).r) ∧ t.dht = s.dht ∧ t.lacrosse = s.lacrosse ∧ t.router = s.router) ∧
    (s.port = .consumer →
      ∀ ch, (t.ring ch).w = (s.ring ch).w ∧ (t.ring ch).slots = (s.ring ch).slots ∧ (t.ring ch).prev = (s.ring ch).prev) ∧
    t.cfg = s.cfg ∧ t.inv = s.inv ∧ t.inReset = s.inReset ∧ t.pending = s.pending ∧ t.port = s.port

/-- R95: a command gives exactly one response, on the port that issued it, and no command reads the responses given before: with another
record of them the same happens. The record itself is the model's own field (log 3). -/
def Obligations.OneResponseAndNoneRead : Prop :=
  ∀ (i : Instr) (s t : State), exec i s = .next t →
    ∃ r, t.responses = (s.port, r) :: s.responses ∧
      ∀ before, exec i { s with responses := before } = .next { t with responses := (s.port, r) :: before }

/-- R96: each command answers only with its statuses, and the codes of the statuses are the table's, no two alike. -/
def Obligations.StatusesAreTheTabled : Prop :=
  (∀ (i : Instr) (s t : State), acceptedOn s.port i = true → exec i s = .next t →
    ∃ r, t.responses = (s.port, r) :: s.responses ∧ r.status ∈ statusesOf i) ∧
  [Status.ok, .empty, .noFrame, .dropped, .suppressed, .forwarded, .lengthError, .classErrorHum, .classErrorTemp, .classErrorCks,
    .checksumError, .radioClassError, .radioChecksumError, .illegal].map Status.code =
    [0x00, 0x01, 0x02, 0x03, 0x04, 0x05, 0x10, 0x11, 0x12, 0x13, 0x14, 0x20, 0x21, 0xFF] ∧
  (∀ a b : Status, a.code = b.code → a = b)

/-! ### Ring family (42_ring_buffer.md, 20_memory.md) -/

/-- R150: NOP answers OK on both ports and changes no state; its only word is 0. -/
def Obligations.NopAnswersOkOnBothPorts : Prop :=
  (∀ s : State, exec .nop s = .next { s with responses := (s.port, ⟨.ok, 0, 0⟩) :: s.responses }) ∧
  decodeWord 0 = .ok .nop ∧
  (∀ w : Command, fieldOp w = 0 → w ≠ 0 → decodeWord w = .error .noMatchingRow)

/-- R152, R154, R51: PUSH on the producer port always completes: the sample into slot `W & MASK`, `W` on by one modulo 2^32, OK. Its frame: every
other slot, `R`, `PREV`, the other ring and all else unchanged. -/
def Obligations.PushStoresSample : Prop :=
  ∀ (ch : Channel) (d : Sample) (s : State), s.port = .producer →
    ∃ t, exec (.push ch d) s = .next t ∧
      Memory.read (t.ring ch).slots (slotOf s.cfg ch (s.ring ch).w) = some d ∧
      (∀ j, j ≠ slotOf s.cfg ch (s.ring ch).w → Memory.read (t.ring ch).slots j = Memory.read (s.ring ch).slots j) ∧
      (t.ring ch).w = (s.ring ch).w + 1 ∧ (t.ring ch).r = (s.ring ch).r ∧ (t.ring ch).prev = (s.ring ch).prev ∧
      (∀ c, c ≠ ch → t.ring c = s.ring c) ∧ t.dht = s.dht ∧ t.lacrosse = s.lacrosse ∧ t.router = s.router ∧
      t.cfg = s.cfg ∧ t.inv = s.inv ∧ t.inReset = s.inReset ∧ t.pending = s.pending ∧ t.port = s.port ∧
      t.responses = (.producer, ⟨.ok, 0, 0⟩) :: s.responses

/-- R156: CAPTURE on the producer port always completes. The duration is `(raw - PREV) mod 2^16` and `PREV` becomes `raw` on every event; on the
radio channel a duration below 400 is dropped, every other is stored as PUSH stores it. Frame as PUSH. -/
def Obligations.CaptureMeasuresFiltersStores : Prop :=
  ∀ (ch : Channel) (raw : Sample) (s : State), s.port = .producer →
    ∃ t, exec (.capture ch raw) s = .next t ∧
      (t.ring ch).prev = raw ∧ (t.ring ch).r = (s.ring ch).r ∧
      (if ch = .radio ∧ (raw - (s.ring ch).prev).toNat < 400 then
        (t.ring ch).w = (s.ring ch).w ∧
        (∀ j, Memory.read (t.ring ch).slots j = Memory.read (s.ring ch).slots j) ∧
        t.responses = (.producer, ⟨.dropped, zext32 (raw - (s.ring ch).prev), 0⟩) :: s.responses
      else
        (t.ring ch).w = (s.ring ch).w + 1 ∧
        Memory.read (t.ring ch).slots (slotOf s.cfg ch (s.ring ch).w) = some (raw - (s.ring ch).prev) ∧
        (∀ j, j ≠ slotOf s.cfg ch (s.ring ch).w → Memory.read (t.ring ch).slots j = Memory.read (s.ring ch).slots j) ∧
        t.responses = (.producer, ⟨.ok, zext32 (raw - (s.ring ch).prev), 0⟩) :: s.responses) ∧
      (∀ c, c ≠ ch → t.ring c = s.ring c) ∧ t.dht = s.dht ∧ t.lacrosse = s.lacrosse ∧ t.router = s.router ∧
      t.cfg = s.cfg ∧ t.inv = s.inv ∧ t.inReset = s.inReset ∧ t.pending = s.pending ∧ t.port = s.port

/-- R160, C3: POP on the consumer port: EMPTY and nothing changed iff `R == W`; else, where the slot `R & MASK` holds a sample, that sample and `R`
on by one, every slot and all else unchanged; a slot never written stops the model (R272, log 5). -/
def Obligations.PopTakesTheSlotOrAnswersEmpty : Prop :=
  ∀ (ch : Channel) (s : State), s.port = .consumer →
    ((s.ring ch).r = (s.ring ch).w →
      exec (.pop ch) s = .next { s with responses := (.consumer, ⟨.empty, 0, 0⟩) :: s.responses }) ∧
    (∀ d, (s.ring ch).r ≠ (s.ring ch).w → Memory.read (s.ring ch).slots (slotOf s.cfg ch (s.ring ch).r) = some d →
      ∃ t, exec (.pop ch) s = .next t ∧
        t.ring ch = { s.ring ch with r := (s.ring ch).r + 1 } ∧
        (∀ c, c ≠ ch → t.ring c = s.ring c) ∧ t.dht = s.dht ∧ t.lacrosse = s.lacrosse ∧ t.router = s.router ∧
        t.cfg = s.cfg ∧ t.inv = s.inv ∧ t.inReset = s.inReset ∧ t.pending = s.pending ∧ t.port = s.port ∧
        t.responses = (.consumer, ⟨.ok, zext32 d, 0⟩) :: s.responses) ∧
    ((s.ring ch).r ≠ (s.ring ch).w → Memory.read (s.ring ch).slots (slotOf s.cfg ch (s.ring ch).r) = none →
      exec (.pop ch) s = .fault (.unwrittenSlot ch (slotOf s.cfg ch (s.ring ch).r)))

/-- The spec's inference R62, U1 and R161: in a state that meets the invariant a POP completes, it never reads a slot that was not written. -/
def Obligations.PopCompletesUnderInvariant : Prop :=
  ∀ (ch : Channel) (s : State), s.Inv → s.port = .consumer → ∃ t, exec (.pop ch) s = .next t

/-- R66: no command on one ring reads or writes any state of the other: with any other content of that ring the same happens, and it is kept. -/
def Obligations.RingsAreIndependent : Prop :=
  ∀ (ch c : Channel) (i : Instr) (s : State) (q : Ring), c ≠ ch →
    ((∃ d, i = .push ch d) ∨ (∃ raw, i = .capture ch raw) ∨ i = .pop ch) →
    (∀ t, exec i s = .next t → t.ring c = s.ring c ∧ exec i (s.setRing c q) = .next (t.setRing c q)) ∧
    (∀ f, exec i s = .fault f → exec i (s.setRing c q) = .fault f)

/-- R51, R152, R160: one use of a ring is one use of a queue while it has room: a PUSH with fewer than `CAP` unread appends its sample, a POP takes
the oldest unread sample. -/
def Obligations.RingStepsAreQueueSteps : Prop :=
  ∀ (ch : Channel) (s : State),
    (∀ (d : Sample) (t : State), s.port = .producer → ((s.ring ch).w - (s.ring ch).r).toNat < capOf s.cfg ch →
      exec (.push ch d) s = .next t → unread t.cfg ch (t.ring ch) = unread s.cfg ch (s.ring ch) ++ [some d]) ∧
    (∀ (d : Sample) (q : List (Option Sample)), s.port = .consumer → unread s.cfg ch (s.ring ch) = some d :: q →
      ∃ t, exec (.pop ch) s = .next t ∧ t.responses = (.consumer, ⟨.ok, zext32 d, 0⟩) :: s.responses ∧
        unread t.cfg ch (t.ring ch) = q)

/-- The spec's inference R63 (FIFO guarantee): from an empty ring, for every sequence of PUSH and POP with at most `CAP` unread at every POP, the
answers are those of a first-in first-out queue: every stored sample once, in order. -/
def Obligations.RingIsFifoWhileDrained : Prop :=
  ∀ (ch : Channel) (ops : List RingOp) (s : State),
    (s.ring ch).r = (s.ring ch).w → drainedInTime (capOf s.cfg ch) 0 ops →
    ∃ t, perform (ops.map (RingOp.command ch)) s = .next t ∧
      t.responses = (fifoAnswers [] ops).reverse ++ s.responses

/-- The spec's inference R64 and R162 (overflow): after any number of PUSHes onto an empty ring, the POP of index `k` returns the latest sample
stored in that index's slot, the one of the largest index below the number stored that shares the slot. -/
def Obligations.OverflowPopsLatestOfSlot : Prop :=
  ∀ (ch : Channel) (ds : List Sample) (k : Nat) (s : State),
    (s.ring ch).r = (s.ring ch).w → ds.length < 2 ^ 32 → k < ds.length →
    ∃ t, perform (ds.map (fun d => (Port.producer, Instr.push ch d)) ++ List.replicate (k + 1) (.consumer, .pop ch)) s = .next t ∧
      t.responses.head? = some (.consumer, ⟨.ok, zext32 (ds.getD (latestIndex ds.length (capOf s.cfg ch) k) 0), 0⟩)

/-! ### Checksum family (40_checksum.md) -/

/-- R111, R114: CRC_RAW on the consumer port completes with the table applied to the four bytes, most significant first, from 0; nothing else
changes. -/
def Obligations.CrcRawChainsTheTable : Prop :=
  ∀ (p : Word) (s : State), s.port = .consumer →
    exec (.crcRaw p) s = .next { s with responses := (.consumer, ⟨.ok,
      zext32 (tableAt s.cfg.crcTable (tableAt s.cfg.crcTable (tableAt s.cfg.crcTable (tableAt s.cfg.crcTable
        (p.extractLsb' 24 8) ^^^ p.extractLsb' 16 8) ^^^ p.extractLsb' 8 8) ^^^ p.extractLsb' 0 8)), 0⟩) :: s.responses }

/-- R111 with the table of R112: CRC_RAW answers the bit-serial CRC-8 of polynomial 0x31, most significant bit first, initial value 0. -/
def Obligations.CrcRawIsThePolynomialRemainder : Prop :=
  ∀ (p : Word) (s : State), s.port = .consumer → s.cfg.crcTable = crcTable0x31 →
    exec (.crcRaw p) s = .next { s with responses := (.consumer, ⟨.ok, zext32 (crcSerial p), 0⟩) :: s.responses }

/-- The spec's inference R115: with the table of R112 the raw CRC is linear over XOR. -/
def Obligations.CrcIsLinear : Prop :=
  ∀ p q : Word, crc8 crcTable0x31 (p ^^^ q) = crc8 crcTable0x31 p ^^^ crc8 crcTable0x31 q

/-- R113, R116, R118: CHECKSUM answers `REDIR` of the raw CRC, VERIFY whether its byte equals it, both on the consumer port with OK and nothing
else changed. -/
def Obligations.ChecksumAndVerifyAnswer : Prop :=
  ∀ (p : Word) (c : Byte) (s : State), s.port = .consumer →
    exec (.checksum p) s = .next { s with responses :=
      (.consumer, ⟨.ok, zext32 (tableAt s.cfg.redir (crc8 s.cfg.crcTable p)), 0⟩) :: s.responses } ∧
    exec (.verify p c) s = .next { s with responses :=
      (.consumer, ⟨.ok, if c = tableAt s.cfg.redir (crc8 s.cfg.crcTable p) then 1 else 0, 0⟩) :: s.responses }

/-! ### Substitution family (41_substitution.md) -/

/-- R131, R132: SUBST_ENC answers `SUBST[b]` and SUBST_DEC `INV[b]`, zero-extended, on the consumer port; nothing else changes. -/
def Obligations.SubstCommandsAnswerTheTables : Prop :=
  ∀ (b : Byte) (s : State), s.port = .consumer →
    exec (.substEnc b) s = .next { s with responses := (.consumer, ⟨.ok, zext32 (tableAt s.cfg.subst b), 0⟩) :: s.responses } ∧
    exec (.substDec b) s = .next { s with responses := (.consumer, ⟨.ok, zext32 (tableAt s.inv b), 0⟩) :: s.responses }

/-- R133 to R136: SUBST24_ENC answers `{SUBST[v1], SUBST[v2], SUBST[v0]}` and SUBST24_DEC `{INV[v1], INV[v2], INV[v0]}`, on the consumer port;
nothing else changes. -/
def Obligations.Subst24CommandsReorderAndSubstitute : Prop :=
  ∀ (v : Triple) (s : State), s.port = .consumer →
    exec (.subst24Enc v) s = .next { s with responses := (.consumer, ⟨.ok,
      zext32 (tableAt s.cfg.subst (v.extractLsb' 8 8) ++ tableAt s.cfg.subst (v.extractLsb' 16 8) ++ tableAt s.cfg.subst (v.extractLsb' 0 8)),
      0⟩) :: s.responses } ∧
    exec (.subst24Dec v) s = .next { s with responses := (.consumer, ⟨.ok,
      zext32 (tableAt s.inv (v.extractLsb' 8 8) ++ tableAt s.inv (v.extractLsb' 16 8) ++ tableAt s.inv (v.extractLsb' 0 8)),
      0⟩) :: s.responses }

/-- The spec's inference in R132 and R136: under `TRUE_INVERSE` decoding undoes encoding and encoding undoes decoding, byte and 24-bit. -/
def Obligations.SubstitutionIsUndone : Prop :=
  ∀ s : State, s.Inv → s.cfg.invMode = .trueInverse → s.port = .consumer →
    (∀ b c : Byte, exec (.substEnc b) s = .next (s.respond .ok (zext32 c) 0) ↔ exec (.substDec c) s = .next (s.respond .ok (zext32 b) 0)) ∧
    (∀ v u : Triple, exec (.subst24Enc v) s = .next (s.respond .ok (zext32 u) 0) ↔ exec (.subst24Dec u) s = .next (s.respond .ok (zext32 v) 0))

/-- R132, R136, C6: under `REFERENCE_ZERO` SUBST_DEC and SUBST24_DEC answer 0 for every operand. -/
def Obligations.ReferenceZeroDecodesToZero : Prop :=
  ∀ (s : State) (b : Byte) (v : Triple), s.Inv → s.cfg.invMode = .referenceZero → s.port = .consumer →
    exec (.substDec b) s = .next { s with responses := (.consumer, ⟨.ok, 0, 0⟩) :: s.responses } ∧
    exec (.subst24Dec v) s = .next { s with responses := (.consumer, ⟨.ok, 0, 0⟩) :: s.responses }

/-! ### DHT22 family (43_dht22.md) -/

/-- R180: DHT_FEED on the consumer port stores the duration in `FB[FN]` while `FN < 43`, counts to at most 44 and answers the new count; every
other entry and all else unchanged. -/
def Obligations.DhtFeedAppendsAndCounts : Prop :=
  ∀ (d : Sample) (s : State), s.port = .consumer →
    ∃ t, exec (.dhtFeed d) s = .next t ∧
      t.dht.fn = min (s.dht.fn + 1) 44 ∧
      (s.dht.fn < 43 → Memory.read t.dht.fb s.dht.fn = some d) ∧
      (∀ j, (s.dht.fn < 43 → j ≠ s.dht.fn) → Memory.read t.dht.fb j = Memory.read s.dht.fb j) ∧
      t.ring0 = s.ring0 ∧ t.ring1 = s.ring1 ∧ t.lacrosse = s.lacrosse ∧ t.router = s.router ∧
      t.cfg = s.cfg ∧ t.inv = s.inv ∧ t.inReset = s.inReset ∧ t.pending = s.pending ∧ t.port = s.port ∧
      t.responses = (.consumer, ⟨.ok, BitVec.ofNat 32 (min (s.dht.fn + 1) 44), 0⟩) :: s.responses

/-- R181, R184: DHT_CLEAR sets `FN` to 0 and keeps `FB`; DHT_DECODE with `FN` other than 43 answers LENGTH_ERROR before anything is classified, and
`FN` is 0. Nothing else changes. -/
def Obligations.DhtClearAndLengthCheck : Prop :=
  ∀ s : State, s.port = .consumer →
    exec .dhtClear s = .next { s with dht := ⟨s.dht.fb, 0⟩, responses := (.consumer, ⟨.ok, 0, 0⟩) :: s.responses } ∧
    (s.dht.fn ≠ 43 → exec .dhtDecode s =
      .next { s with dht := ⟨s.dht.fb, 0⟩, responses := (.consumer, ⟨.lengthError, 0, 0⟩) :: s.responses })

/-- R182 to R187, and the spec's inference R189 (a) and (c): a whole frame in the windows answers its humidity and temperature where the transmitted
byte is the sum of their four bytes modulo 256, and CHECKSUM_ERROR where it is not; `FN` is 0, nothing else changes. -/
def Obligations.DhtDecodeReadsTheFrame : Prop :=
  ∀ (s : State) (h t : BitVec 16) (k : Byte), s.port = .consumer → s.dht.fn = 43 →
    CarriesBits s.dht.fb 3 h → CarriesBits s.dht.fb 19 t → CarriesBits s.dht.fb 35 k →
    exec .dhtDecode s = .next { s with
      dht := ⟨s.dht.fb, 0⟩
      responses := (.consumer,
        if k = h.extractLsb' 8 8 + h.extractLsb' 0 8 + t.extractLsb' 8 8 + t.extractLsb' 0 8 then ⟨.ok, zext32 h, zext32 t⟩
        else ⟨.checksumError, 0, 0⟩) :: s.responses }

/-- R183 to R185, and the spec's inference R189 (b): the first field with a duration in neither window decides the status, later fields are not
examined; both response fields are 0, `FN` is 0, nothing else changes. -/
def Obligations.DhtFirstFailingFieldDecides : Prop :=
  ∀ (s : State) (h t : BitVec 16), s.port = .consumer → s.dht.fn = 43 →
    (HoldsInvalid s.dht.fb 3 16 → exec .dhtDecode s =
      .next { s with dht := ⟨s.dht.fb, 0⟩, responses := (.consumer, ⟨.classErrorHum, 0, 0⟩) :: s.responses }) ∧
    (CarriesBits s.dht.fb 3 h → HoldsInvalid s.dht.fb 19 16 → exec .dhtDecode s =
      .next { s with dht := ⟨s.dht.fb, 0⟩, responses := (.consumer, ⟨.classErrorTemp, 0, 0⟩) :: s.responses }) ∧
    (CarriesBits s.dht.fb 3 h → CarriesBits s.dht.fb 19 t → HoldsInvalid s.dht.fb 35 8 → exec .dhtDecode s =
      .next { s with dht := ⟨s.dht.fb, 0⟩, responses := (.consumer, ⟨.classErrorCks, 0, 0⟩) :: s.responses })

/-- The spec's inference in U2: in a state that meets the invariant DHT_DECODE completes, it never reads an entry that was not written; whatever the
outcome it leaves `FN` at 0, `FB` and all else as they were (R184). -/
def Obligations.DhtDecodeCompletesUnderInvariant : Prop :=
  ∀ s : State, s.Inv → s.port = .consumer →
    ∃ r, exec .dhtDecode s = .next { s with dht := ⟨s.dht.fb, 0⟩, responses := (.consumer, r) :: s.responses }

/-! ### LaCrosse decoder (44_lacrosse.md) -/

/-- R211: in the preamble a duration in (1500,1800) advances `RS` by one, any other sets it to 0; `RB`, `RREG` and all else are unchanged. -/
def Obligations.RadioPreambleCountsLongSync : Prop :=
  ∀ (d : Sample) (s : State), s.port = .consumer → s.lacrosse.rs ≤ 2 →
    exec (.radioPulse d) s = .next (
      if 1500 < d.toNat ∧ d.toNat < 1800 then
        { s with lacrosse := { s.lacrosse with rs := s.lacrosse.rs + 1 }, responses := (.consumer, ⟨.noFrame, 0, 0⟩) :: s.responses }
      else
        { s with lacrosse := { s.lacrosse with rs := 0 }, responses := (.consumer, ⟨.radioClassError, 0, 0⟩) :: s.responses })

/-- R212: in state 3 a duration in (1200,1400) sets `RB` to 1, `RREG` to 1 and `RS` to 4; any other sets `RB` and `RS` to 0 and leaves `RREG`. -/
def Obligations.RadioFirstBitSeeds : Prop :=
  ∀ (d : Sample) (s : State), s.port = .consumer → s.lacrosse.rs = 3 →
    exec (.radioPulse d) s = .next (
      if 1200 < d.toNat ∧ d.toNat < 1400 then
        { s with lacrosse := ⟨4, true, 1⟩, responses := (.consumer, ⟨.noFrame, 0, 0⟩) :: s.responses }
      else
        { s with lacrosse := ⟨0, false, s.lacrosse.rreg⟩, responses := (.consumer, ⟨.radioClassError, 0, 0⟩) :: s.responses })

/-- R213 to R215: in states 4..41 the window of the previous bit decides the new bit, which is shifted in; a duration of neither window resets
with `RB` 0 and leaves `RREG`. A shift discards bit 39 (R28). -/
def Obligations.RadioBodyDecodesByPreviousBit : Prop :=
  ∀ (d : Sample) (s : State), s.port = .consumer → 4 ≤ s.lacrosse.rs → s.lacrosse.rs ≤ 41 →
    exec (.radioPulse d) s = .next (
      if (if s.lacrosse.rb then 400 else 600) < d.toNat ∧ d.toNat < (if s.lacrosse.rb then 600 else 800) then
        { s with lacrosse := ⟨s.lacrosse.rs + 1, false, s.lacrosse.rreg <<< 1⟩, responses := (.consumer, ⟨.noFrame, 0, 0⟩) :: s.responses }
      else if (if s.lacrosse.rb then 600 else 800) < d.toNat ∧ d.toNat < (if s.lacrosse.rb then 800 else 1000) then
        { s with lacrosse := ⟨s.lacrosse.rs + 1, true, s.lacrosse.rreg <<< 1 ||| 1⟩, responses := (.consumer, ⟨.noFrame, 0, 0⟩) :: s.responses }
      else
        { s with lacrosse := ⟨0, false, s.lacrosse.rreg⟩, responses := (.consumer, ⟨.radioClassError, 0, 0⟩) :: s.responses })

/-- R210, R218, R303: the 43rd pulse. In state 42 a bit completes the frame: `RS` is 0, `RB` and `RREG` keep what the bit gave them, the answer is
the payload where `RREG[7:0] = REDIR[crc8(RREG[39:8])]` and RADIO_CHECKSUM_ERROR where not; a miss is RADIO_CLASS_ERROR and no checksum is
computed. -/
def Obligations.RadioLastBitCompletesFrame : Prop :=
  ∀ (d : Sample) (s : State), s.port = .consumer → s.lacrosse.rs = 42 →
    exec (.radioPulse d) s = .next (
      match bodyBit s.lacrosse.rb d with
      | none => { s with lacrosse := ⟨0, false, s.lacrosse.rreg⟩, responses := (.consumer, ⟨.radioClassError, 0, 0⟩) :: s.responses }
      | some nb =>
        { s with
          lacrosse := ⟨0, nb, shiftIn s.lacrosse.rreg nb⟩
          responses := (.consumer,
            if (shiftIn s.lacrosse.rreg nb).extractLsb' 0 8 =
                tableAt s.cfg.redir (crc8 s.cfg.crcTable ((shiftIn s.lacrosse.rreg nb).extractLsb' 8 32)) then
              ⟨.ok, (shiftIn s.lacrosse.rreg nb).extractLsb' 8 32, 0⟩
            else ⟨.radioChecksumError, 0, 0⟩) :: s.responses })

/-- The spec's inference R222 (a): from `RS = 0` the 43 pulses of a frame answer NO_FRAME 42 times and then the payload where the frame's checksum
byte verifies, RADIO_CHECKSUM_ERROR where not; the decoder ends at `RS = 0` with the frame in `RREG`, all else unchanged. -/
def Obligations.RadioFrameIsDecoded : Prop :=
  ∀ (f : Frame) (ds : List Sample) (s : State), s.lacrosse.rs = 0 → CarriesFrame f ds →
    perform (radioPulses ds) s = .next { s with
      port := .consumer
      lacrosse := ⟨0, f.getLsbD 0, f⟩
      responses := (.consumer,
        if f.extractLsb' 0 8 = tableAt s.cfg.redir (crc8 s.cfg.crcTable (f.extractLsb' 8 32)) then ⟨.ok, f.extractLsb' 8 32, 0⟩
        else ⟨.radioChecksumError, 0, 0⟩) :: (List.replicate 42 (.consumer, ⟨.noFrame, 0, 0⟩) ++ s.responses) }

/-- The spec's inference R223: the canonical pulse sequence carries its frame: every duration lies in the window it arrives at. -/
def Obligations.CanonicalPulsesCarryTheFrame : Prop :=
  ∀ f : Frame, f.getLsbD 39 = true → CarriesFrame f (canonicalPulses f)

/-- The spec's inference R243 (round trip): for every sync byte with bit 7 set and every payload, the canonical pulses of what FRAME_ENCODE answers,
fed from `RS = 0`, answer NO_FRAME 42 times and then OK with FRAME_ENCODE's word. -/
def Obligations.EncodedFrameIsDecoded : Prop :=
  ∀ (sync : Byte) (p : Word) (s : State), s.lacrosse.rs = 0 → sync.getLsbD 7 = true →
    ∃ (v : Word) (c : Byte) (t : State),
      perform ((.consumer, .frameEncode sync p) :: radioPulses (canonicalPulses (v ++ c))) s = .next t ∧
      t.responses = (.consumer, ⟨.ok, v, 0⟩) :: (List.replicate 42 (.consumer, ⟨.noFrame, 0, 0⟩) ++
        (.consumer, ⟨.ok, v, zext32 c⟩) :: s.responses)

/-- The spec's inference in R222 (b): from `RS = 0` no 42 pulses complete a frame: every answer is NO_FRAME or RADIO_CLASS_ERROR. -/
def Obligations.NoFrameWithinFortyTwoPulses : Prop :=
  ∀ (ds : List Sample) (s : State), s.lacrosse.rs = 0 → ds.length ≤ 42 →
    ∃ (t : State) (answers : List (Port × Response)), perform (radioPulses ds) s = .next t ∧
      t.responses = answers ++ s.responses ∧ answers.length = ds.length ∧
      ∀ a ∈ answers, a.2.status = .noFrame ∨ a.2.status = .radioClassError

/-- The spec's inference R217: every payload the decoder returns has bit 31 set. -/
def Obligations.ReturnedPayloadHasTopBit : Prop :=
  ∀ (d : Sample) (s t : State) (r0 : Word), s.Inv → s.port = .consumer → exec (.radioPulse d) s = .next t →
    t.responses = (.consumer, ⟨.ok, r0, 0⟩) :: s.responses → r0.getLsbD 31 = true

/-! ### Encoder and router (45_frame_encode.md, 46_router.md) -/

/-- R240: FRAME_ENCODE on the consumer port answers `v = {sync, SUBST[p1], SUBST[p2], SUBST[p0]}` and `REDIR[crc8(v)]`; `p[31:24]` is read by nothing
and nothing else changes. -/
def Obligations.FrameEncodeAnswersWordAndChecksum : Prop :=
  ∀ (sync : Byte) (p : Word) (s : State), s.port = .consumer →
    ∃ v : Word,
      v = sync ++ (tableAt s.cfg.subst (p.extractLsb' 8 8) ++ tableAt s.cfg.subst (p.extractLsb' 16 8) ++ tableAt s.cfg.subst (p.extractLsb' 0 8)) ∧
      exec (.frameEncode sync p) s = .next { s with responses :=
        (.consumer, ⟨.ok, v, zext32 (tableAt s.cfg.redir (crc8 s.cfg.crcTable v))⟩) :: s.responses }

/-- R250, R251, R253: ROUTE on the consumer port corrects (radio temperature less 500, radio humidity times 10, modulo 2^32, wired unchanged), and
forwards, remembering the value, unless the pair has been forwarded and its last value equals it; then it is suppressed and nothing changes. -/
def Obligations.RouteCorrectsAndForwardsOnChange : Prop :=
  ∀ (src : Source) (kind : Kind) (raw val code : Word) (s : State), s.port = .consumer →
    val = (match src, kind with | .radio, .temp => raw - 500 | .radio, .hum => raw * 10 | .wired, _ => raw) →
    code = (match src, kind with | .wired, .temp => 0 | .radio, .temp => 1 | .wired, .hum => 2 | .radio, .hum => 3) →
    ∃ t, exec (.route src kind raw) s = .next t ∧
      (if (s.router.pair src kind).has = true ∧ val = (s.router.pair src kind).last then
        t.router = s.router ∧ t.responses = (.consumer, ⟨.suppressed, val, code⟩) :: s.responses
      else
        t.router.pair src kind = ⟨val, true⟩ ∧ t.responses = (.consumer, ⟨.forwarded, val, code⟩) :: s.responses) ∧
      (∀ a b, ¬ (a = src ∧ b = kind) → t.router.pair a b = s.router.pair a b) ∧
      t.ring0 = s.ring0 ∧ t.ring1 = s.ring1 ∧ t.dht = s.dht ∧ t.lacrosse = s.lacrosse ∧
      t.cfg = s.cfg ∧ t.inv = s.inv ∧ t.inReset = s.inReset ∧ t.pending = s.pending ∧ t.port = s.port

/-- R256: a ROUTE reads and writes only the memory of its own pair: whatever is remembered of another pair, the same happens and it is kept. -/
def Obligations.RoutedPairsAreIndependent : Prop :=
  ∀ (src a : Source) (kind b : Kind) (raw : Word) (m : Remembered) (s t : State), ¬ (a = src ∧ b = kind) →
    exec (.route src kind raw) s = .next t →
    t.router.pair a b = s.router.pair a b ∧
    exec (.route src kind raw) (s.setRouter (s.router.setPair a b m)) = .next (t.setRouter (t.router.setPair a b m))

/-- The spec's inference R257: three ROUTEs of one pair with corrected values `x, x, y`, `y` not `x`: the first FORWARDED unless the pair already
holds `x`, the second SUPPRESSED, the third FORWARDED with `y`. -/
def Obligations.RepeatedReadingIsForwardedOnce : Prop :=
  ∀ (src : Source) (kind : Kind) (a b c : Word) (s : State),
    corrected src kind a = corrected src kind b → corrected src kind c ≠ corrected src kind a →
    ∃ t, perform [(.consumer, .route src kind a), (.consumer, .route src kind b), (.consumer, .route src kind c)] s = .next t ∧
      t.responses =
        [(.consumer, ⟨.forwarded, corrected src kind c, pairCode src kind⟩),
         (.consumer, ⟨.suppressed, corrected src kind a, pairCode src kind⟩),
         (.consumer, ⟨if s.router.pair src kind = ⟨corrected src kind a, true⟩ then .suppressed else .forwarded,
           corrected src kind a, pairCode src kind⟩)] ++ s.responses

/-! ### State read-back (47_state_access.md) -/

/-- R270, R271: the scalar selectors on the consumer port, each with index 0: OK, the element named, nothing else changed. -/
def Obligations.ReadStateAnswersScalars : Prop :=
  ∀ s : State, s.port = .consumer → ∀ (sel8 : Byte) (v : Word),
    (sel8, v) ∈ ([ (0x00, s.ring0.w), (0x01, s.ring0.r), (0x02, s.ring1.w), (0x03, s.ring1.r),
      (0x04, s.ring0.prev.setWidth 32), (0x05, s.ring1.prev.setWidth 32),
      (0x08, BitVec.ofNat 32 s.lacrosse.rs), (0x09, if s.lacrosse.rb then 1 else 0),
      (0x0A, s.lacrosse.rreg.extractLsb' 0 32), (0x0B, (s.lacrosse.rreg.extractLsb' 32 8).setWidth 32), (0x0C, BitVec.ofNat 32 s.dht.fn),
      (0x10, s.router.wiredTemp.last), (0x11, s.router.radioTemp.last), (0x12, s.router.wiredHum.last), (0x13, s.router.radioHum.last),
      (0x14, if s.router.wiredTemp.has then 1 else 0), (0x15, if s.router.radioTemp.has then 1 else 0),
      (0x16, if s.router.wiredHum.has then 1 else 0), (0x17, if s.router.radioHum.has then 1 else 0),
      (0x30, BitVec.ofNat 32 (2 ^ s.cfg.kDht.val)), (0x31, BitVec.ofNat 32 (2 ^ s.cfg.kRadio.val)) ] : List (Byte × Word)) →
    exec (.readState sel8 0) s = .next { s with responses := (.consumer, ⟨.ok, v, 0⟩) :: s.responses }

/-- R270 to R272: the array selectors on the consumer port: a written slot or entry answers its value, an index outside the array is ILLEGAL, and an
entry never written stops the model (R272 "it should fault"; log 5). -/
def Obligations.ReadStateAnswersEntries : Prop :=
  ∀ (s : State) (sel8 : Byte) (idx : Sample) (m : Memory) (n : Nat) (f : Fault), s.port = .consumer →
    ((sel8 = 0x20 ∧ m = s.ring0.slots ∧ n = 2 ^ s.cfg.kDht.val ∧ f = .unwrittenSlot .dht idx.toNat) ∨
     (sel8 = 0x21 ∧ m = s.ring1.slots ∧ n = 2 ^ s.cfg.kRadio.val ∧ f = .unwrittenSlot .radio idx.toNat) ∨
     (sel8 = 0x22 ∧ m = s.dht.fb ∧ n = 43 ∧ f = .unwrittenEntry idx.toNat)) →
    (∀ d, idx.toNat < n → Memory.read m idx.toNat = some d →
      exec (.readState sel8 idx) s = .next { s with responses := (.consumer, ⟨.ok, d.setWidth 32, 0⟩) :: s.responses }) ∧
    (idx.toNat < n → Memory.read m idx.toNat = none → exec (.readState sel8 idx) s = .fault f) ∧
    (n ≤ idx.toNat → exec (.readState sel8 idx) s = .next { s with responses := (.consumer, ⟨.illegal, 0, 0⟩) :: s.responses })

/-- R270, R271: a command the static check refuses (a selector not in R271, an index with a scalar selector, an `FB` index above 42) is answered
ILLEGAL in every build and changes nothing. -/
def Obligations.IllFormedReadStateIsIllegal : Prop :=
  ∀ (i : Instr) (s : State), i.wellFormed = false →
    exec i s = .next { s with responses := (s.port, ⟨.illegal, 0, 0⟩) :: s.responses }

/-- R57, R270: READ_STATE never changes state. -/
def Obligations.ReadStateHasNoSideEffect : Prop :=
  ∀ (sel8 : Byte) (idx : Sample) (s t : State), exec (.readState sel8 idx) s = .next t →
    t = { s with responses := t.responses }
end

