-- ==== Sys2Proof/Laws/Decode.lean ====
section
/-! SUPPORT. The fields of a packed word, and what it takes for a row to accept one (30_encoding.md R80, R84). -/
namespace Sys2Proof

theorem packFields_toNat (op sel : BitVec 4) (x8 : Byte) (a16 : Sample) (b32 : Word) :
    (packFields op sel x8 a16 b32).toNat =
      op.toNat + 2 ^ 4 * sel.toNat + 2 ^ 8 * x8.toNat + 2 ^ 16 * a16.toNat + 2 ^ 32 * b32.toNat := by
  unfold packFields
  simp only [BitVec.toNat_append, Nat.shiftLeft_eq]
  rw [← Nat.shiftLeft_eq, ← Nat.shiftLeft_add_eq_or_of_lt op.isLt, ← Nat.shiftLeft_eq,
    ← Nat.shiftLeft_add_eq_or_of_lt sel.isLt, ← Nat.shiftLeft_eq, ← Nat.shiftLeft_add_eq_or_of_lt x8.isLt,
    ← Nat.shiftLeft_eq, ← Nat.shiftLeft_add_eq_or_of_lt a16.isLt]
  simp only [Nat.shiftLeft_eq]
  omega

variable (op sel : BitVec 4) (x8 : Byte) (a16 : Sample) (b32 : Word)

@[simp] theorem fieldOp_packFields : fieldOp (packFields op sel x8 a16 b32) = op := by
  apply BitVec.eq_of_toNat_eq
  simp only [fieldOp, BitVec.extractLsb'_toNat, packFields_toNat, Nat.shiftRight_eq_div_pow]
  omega

@[simp] theorem fieldSel_packFields : fieldSel (packFields op sel x8 a16 b32) = sel := by
  apply BitVec.eq_of_toNat_eq
  simp only [fieldSel, BitVec.extractLsb'_toNat, packFields_toNat, Nat.shiftRight_eq_div_pow]
  omega

@[simp] theorem fieldX8_packFields : fieldX8 (packFields op sel x8 a16 b32) = x8 := by
  apply BitVec.eq_of_toNat_eq
  simp only [fieldX8, BitVec.extractLsb'_toNat, packFields_toNat, Nat.shiftRight_eq_div_pow]
  omega

@[simp] theorem fieldA16_packFields : fieldA16 (packFields op sel x8 a16 b32) = a16 := by
  apply BitVec.eq_of_toNat_eq
  simp only [fieldA16, BitVec.extractLsb'_toNat, packFields_toNat, Nat.shiftRight_eq_div_pow]
  omega

@[simp] theorem fieldB32_packFields : fieldB32 (packFields op sel x8 a16 b32) = b32 := by
  apply BitVec.eq_of_toNat_eq
  simp only [fieldB32, BitVec.extractLsb'_toNat, packFields_toNat, Nat.shiftRight_eq_div_pow]
  omega

/-- Every word is its five fields. -/
theorem packFields_fields (w : Command) :
    packFields (fieldOp w) (fieldSel w) (fieldX8 w) (fieldA16 w) (fieldB32 w) = w := by
  apply BitVec.eq_of_toNat_eq
  simp only [packFields_toNat, fieldOp, fieldSel, fieldX8, fieldA16, fieldB32, BitVec.extractLsb'_toNat, Nat.shiftRight_eq_div_pow]
  omega

/-- The conjunction of two packed words goes field by field. -/
theorem packFields_and (op' sel' : BitVec 4) (x8' : Byte) (a16' : Sample) (b32' : Word) :
    packFields op sel x8 a16 b32 &&& packFields op' sel' x8' a16' b32' =
      packFields (op &&& op') (sel &&& sel') (x8 &&& x8') (a16 &&& a16') (b32 &&& b32') := by
  apply BitVec.eq_of_getLsbD_eq
  intro i _
  simp only [packFields, BitVec.getLsbD_and, BitVec.getLsbD_append]
  split <;> [rfl; split <;> [rfl; split <;> [rfl; split <;> rfl]]]

/-- Packed words are equal field by field. -/
theorem packFields_inj {op' sel' : BitVec 4} {x8' : Byte} {a16' : Sample} {b32' : Word} :
    packFields op sel x8 a16 b32 = packFields op' sel' x8' a16' b32' ↔
      op = op' ∧ sel = sel' ∧ x8 = x8' ∧ a16 = a16' ∧ b32 = b32' := by
  constructor
  · intro h
    refine ⟨?_, ?_, ?_, ?_, ?_⟩
    · simpa using congrArg fieldOp h
    · simpa using congrArg fieldSel h
    · simpa using congrArg fieldX8 h
    · simpa using congrArg fieldA16 h
    · simpa using congrArg fieldB32 h
  · rintro ⟨rfl, rfl, rfl, rfl, rfl⟩; rfl

/-- A row accepts a packed word field by field: each field under the row's mask is the row's. -/
theorem Row.accepts_packFields (r : Row) :
    r.accepts (packFields op sel x8 a16 b32) = true ↔
      op &&& fieldOp r.mask = fieldOp r.pattern ∧ sel &&& fieldSel r.mask = fieldSel r.pattern ∧
      x8 &&& fieldX8 r.mask = fieldX8 r.pattern ∧ a16 &&& fieldA16 r.mask = fieldA16 r.pattern ∧
      b32 &&& fieldB32 r.mask = fieldB32 r.pattern := by
  rw [Row.accepts, beq_iff_eq, ← packFields_fields r.mask, ← packFields_fields r.pattern, packFields_and, packFields_inj]
  simp

@[simp] theorem channelOf_channelSel (ch : Channel) : channelOf (channelSel ch) = ch := by cases ch <;> rfl
@[simp] theorem sourceOf_routeSel (src : Source) (kind : Kind) : sourceOf (routeSel src kind) = src := by
  cases src <;> cases kind <;> rfl
@[simp] theorem kindOf_routeSel (src : Source) (kind : Kind) : kindOf (routeSel src kind) = kind := by
  cases src <;> cases kind <;> rfl

end Sys2Proof
end

