-- ==== Sys2Proof/Laws/Memory.lean ====
section
/-! SUPPORT. The laws of the storage arrays: read after write, the canonical form kept, bounds kept, equal reads are equal arrays. -/
namespace Sys2Proof.Machine

@[simp] theorem Memory.read_nil (i : Nat) : Memory.read [] i = none := rfl

/-- A read of the entry just written gives the value written. -/
@[simp] theorem Memory.read_write_same (m : Memory) (i : Nat) (v : Sample) : (Memory.write m i v).read i = some v := by
  induction m with
  | nil => simp [Memory.write, Memory.read]
  | cons e m ih =>
    obtain ⟨a, x⟩ := e
    unfold Memory.write
    split
    · simp [Memory.read]
    · split
      · simp [Memory.read]
      · simp [Memory.read, *]

/-- A write leaves every other entry alone. -/
theorem Memory.read_write_other (m : Memory) {i j : Nat} (v : Sample) (h : j ≠ i) : (Memory.write m i v).read j = m.read j := by
  induction m with
  | nil => simp [Memory.write, Memory.read, h]
  | cons e m ih =>
    obtain ⟨a, x⟩ := e
    unfold Memory.write
    split
    · simp [Memory.read, h]
    · split
      · subst_vars; simp [Memory.read, h]
      · simp only [Memory.read, ih]

/-- Both at once. -/
theorem Memory.read_write (m : Memory) (i j : Nat) (v : Sample) :
    (Memory.write m i v).read j = if j = i then some v else m.read j := by
  split
  · subst_vars; simp
  · exact Memory.read_write_other m v ‹_›

/-- A write adds at most the entry it writes. -/
theorem Memory.mem_write {m : Memory} {i : Nat} {v : Sample} {e : Nat × Sample} (h : e ∈ Memory.write m i v) :
    e = (i, v) ∨ e ∈ m := by
  induction m with
  | nil => simpa [Memory.write] using h
  | cons x m ih =>
    obtain ⟨a, y⟩ := x
    unfold Memory.write at h
    split at h
    · simpa using h
    · split at h
      · rcases List.mem_cons.mp h with h | h
        · exact .inl h
        · exact .inr (List.mem_cons_of_mem _ h)
      · rcases List.mem_cons.mp h with h | h
        · exact .inr (h ▸ List.mem_cons_self)
        · exact (ih h).imp_right (List.mem_cons_of_mem _)

/-- A write keeps the canonical form. -/
theorem Memory.write_wf {m : Memory} (h : Memory.wf m) (i : Nat) (v : Sample) : Memory.wf (Memory.write m i v) := by
  induction m with
  | nil => simp [Memory.write, Memory.wf]
  | cons e m ih =>
    obtain ⟨a, x⟩ := e
    have hm : Memory.wf m := (List.pairwise_cons.mp h).2
    have ha : ∀ k ∈ m.map Prod.fst, a < k := (List.pairwise_cons.mp h).1
    unfold Memory.write
    split
    · next hlt =>
      refine List.pairwise_cons.mpr ⟨?_, h⟩
      intro k hk
      rcases List.mem_cons.mp hk with rfl | hk
      · exact hlt
      · exact lt_trans hlt (ha k hk)
    · split
      · next heq => subst heq; exact List.pairwise_cons.mpr ⟨ha, hm⟩
      · next hge hne =>
        refine List.pairwise_cons.mpr ⟨?_, ih hm⟩
        intro k hk
        obtain ⟨e, he, rfl⟩ := List.mem_map.mp hk
        rcases Memory.mem_write he with rfl | he
        · exact lt_of_le_of_ne (Nat.le_of_not_lt hge) (Ne.symm hne)
        · exact ha _ (List.mem_map_of_mem he)

/-- A write inside the array keeps every listed index inside it. -/
theorem Memory.write_below {m : Memory} {n i : Nat} (h : Memory.below n m) (hi : i < n) (v : Sample) :
    Memory.below n (Memory.write m i v) := by
  intro e he
  rcases Memory.mem_write he with rfl | he
  · exact hi
  · exact h e he

/-- What has been written stays written. -/
theorem Memory.isSome_write {m : Memory} {j : Nat} (h : (m.read j).isSome) (i : Nat) (v : Sample) :
    ((Memory.write m i v).read j).isSome := by
  rw [Memory.read_write]; split <;> simp_all

/-- An array whose listed indices are all above `i` reads nothing at `i`. -/
theorem Memory.read_none_of_above {m : Memory} {i : Nat} (h : ∀ k ∈ m.map Prod.fst, i < k) : m.read i = none := by
  induction m with
  | nil => rfl
  | cons e m ih =>
    have he : i < e.1 := h e.1 (by simp)
    simp only [Memory.read, ne_of_lt he, if_false]
    exact ih fun k hk => h k (by simp only [List.map_cons, List.mem_cons]; exact .inr hk)

/-- A canonical array reads nothing at an index below its first. -/
theorem Memory.read_below_first {a i : Nat} {x : Sample} {m : Memory} (h : Memory.wf ((a, x) :: m)) (hi : i < a) :
    Memory.read ((a, x) :: m) i = none := by
  refine Memory.read_none_of_above fun k hk => ?_
  rcases List.mem_cons.mp hk with rfl | hk
  · exact hi
  · exact lt_trans hi ((List.pairwise_cons.mp h).1 k hk)

/-- Canonical arrays with equal reads are equal data. -/
theorem Memory.ext_read {m m' : Memory} (h : Memory.wf m) (h' : Memory.wf m') (hr : ∀ i, m.read i = m'.read i) : m = m' := by
  induction m generalizing m' with
  | nil =>
    cases m' with
    | nil => rfl
    | cons e m' => have := hr e.1; simp [Memory.read] at this
  | cons e m ih =>
    obtain ⟨a, x⟩ := e
    cases m' with
    | nil => have := hr a; simp [Memory.read] at this
    | cons e' m' =>
      obtain ⟨b, y⟩ := e'
      have hab : a = b := by
        rcases lt_trichotomy a b with hlt | heq | hlt
        · have := hr a
          rw [Memory.read_below_first h' hlt] at this
          simp [Memory.read] at this
        · exact heq
        · have := hr b
          rw [Memory.read_below_first h hlt] at this
          simp [Memory.read] at this
      subst hab
      have hxy : x = y := by have := hr a; simpa [Memory.read] using this
      subst hxy
      congr 1
      refine ih (List.pairwise_cons.mp h).2 (List.pairwise_cons.mp h').2 fun i => ?_
      by_cases hia : i = a
      · subst hia
        rw [Memory.read_none_of_above (List.pairwise_cons.mp h).1, Memory.read_none_of_above (List.pairwise_cons.mp h').1]
      · have := hr i; simpa [Memory.read, hia] using this

end Sys2Proof.Machine
end

