-- ==== Sys2Proof/Laws/State.lean ====
section
/-! SUPPORT. One lemma per field per update of State, so that no later proof unfolds an update. -/
namespace Sys2Proof.Machine

variable (s : State)

/-! ### setDht -/
@[simp] theorem State.setDht_cfg (d : Dht) : (s.setDht d).cfg = s.cfg := rfl
@[simp] theorem State.setDht_inv (d : Dht) : (s.setDht d).inv = s.inv := rfl
@[simp] theorem State.setDht_ring0 (d : Dht) : (s.setDht d).ring0 = s.ring0 := rfl
@[simp] theorem State.setDht_ring1 (d : Dht) : (s.setDht d).ring1 = s.ring1 := rfl
@[simp] theorem State.setDht_dht (d : Dht) : (s.setDht d).dht = d := rfl
@[simp] theorem State.setDht_lacrosse (d : Dht) : (s.setDht d).lacrosse = s.lacrosse := rfl
@[simp] theorem State.setDht_router (d : Dht) : (s.setDht d).router = s.router := rfl
@[simp] theorem State.setDht_inReset (d : Dht) : (s.setDht d).inReset = s.inReset := rfl
@[simp] theorem State.setDht_pending (d : Dht) : (s.setDht d).pending = s.pending := rfl
@[simp] theorem State.setDht_port (d : Dht) : (s.setDht d).port = s.port := rfl
@[simp] theorem State.setDht_responses (d : Dht) : (s.setDht d).responses = s.responses := rfl
@[simp] theorem State.setDht_ring (d : Dht) (c : Channel) : (s.setDht d).ring c = s.ring c := by cases c <;> rfl

/-! ### setLacrosse -/
@[simp] theorem State.setLacrosse_cfg (l : Lacrosse) : (s.setLacrosse l).cfg = s.cfg := rfl
@[simp] theorem State.setLacrosse_inv (l : Lacrosse) : (s.setLacrosse l).inv = s.inv := rfl
@[simp] theorem State.setLacrosse_ring0 (l : Lacrosse) : (s.setLacrosse l).ring0 = s.ring0 := rfl
@[simp] theorem State.setLacrosse_ring1 (l : Lacrosse) : (s.setLacrosse l).ring1 = s.ring1 := rfl
@[simp] theorem State.setLacrosse_dht (l : Lacrosse) : (s.setLacrosse l).dht = s.dht := rfl
@[simp] theorem State.setLacrosse_lacrosse (l : Lacrosse) : (s.setLacrosse l).lacrosse = l := rfl
@[simp] theorem State.setLacrosse_router (l : Lacrosse) : (s.setLacrosse l).router = s.router := rfl
@[simp] theorem State.setLacrosse_inReset (l : Lacrosse) : (s.setLacrosse l).inReset = s.inReset := rfl
@[simp] theorem State.setLacrosse_pending (l : Lacrosse) : (s.setLacrosse l).pending = s.pending := rfl
@[simp] theorem State.setLacrosse_port (l : Lacrosse) : (s.setLacrosse l).port = s.port := rfl
@[simp] theorem State.setLacrosse_responses (l : Lacrosse) : (s.setLacrosse l).responses = s.responses := rfl
@[simp] theorem State.setLacrosse_ring (l : Lacrosse) (c : Channel) : (s.setLacrosse l).ring c = s.ring c := by cases c <;> rfl

/-! ### setRouter -/
@[simp] theorem State.setRouter_cfg (q : Router) : (s.setRouter q).cfg = s.cfg := rfl
@[simp] theorem State.setRouter_inv (q : Router) : (s.setRouter q).inv = s.inv := rfl
@[simp] theorem State.setRouter_ring0 (q : Router) : (s.setRouter q).ring0 = s.ring0 := rfl
@[simp] theorem State.setRouter_ring1 (q : Router) : (s.setRouter q).ring1 = s.ring1 := rfl
@[simp] theorem State.setRouter_dht (q : Router) : (s.setRouter q).dht = s.dht := rfl
@[simp] theorem State.setRouter_lacrosse (q : Router) : (s.setRouter q).lacrosse = s.lacrosse := rfl
@[simp] theorem State.setRouter_router (q : Router) : (s.setRouter q).router = q := rfl
@[simp] theorem State.setRouter_inReset (q : Router) : (s.setRouter q).inReset = s.inReset := rfl
@[simp] theorem State.setRouter_pending (q : Router) : (s.setRouter q).pending = s.pending := rfl
@[simp] theorem State.setRouter_port (q : Router) : (s.setRouter q).port = s.port := rfl
@[simp] theorem State.setRouter_responses (q : Router) : (s.setRouter q).responses = s.responses := rfl
@[simp] theorem State.setRouter_ring (q : Router) (c : Channel) : (s.setRouter q).ring c = s.ring c := by cases c <;> rfl

/-! ### respond -/
@[simp] theorem State.respond_cfg (st : Status) (a b : Word) : (s.respond st a b).cfg = s.cfg := rfl
@[simp] theorem State.respond_inv (st : Status) (a b : Word) : (s.respond st a b).inv = s.inv := rfl
@[simp] theorem State.respond_ring0 (st : Status) (a b : Word) : (s.respond st a b).ring0 = s.ring0 := rfl
@[simp] theorem State.respond_ring1 (st : Status) (a b : Word) : (s.respond st a b).ring1 = s.ring1 := rfl
@[simp] theorem State.respond_dht (st : Status) (a b : Word) : (s.respond st a b).dht = s.dht := rfl
@[simp] theorem State.respond_lacrosse (st : Status) (a b : Word) : (s.respond st a b).lacrosse = s.lacrosse := rfl
@[simp] theorem State.respond_router (st : Status) (a b : Word) : (s.respond st a b).router = s.router := rfl
@[simp] theorem State.respond_inReset (st : Status) (a b : Word) : (s.respond st a b).inReset = s.inReset := rfl
@[simp] theorem State.respond_pending (st : Status) (a b : Word) : (s.respond st a b).pending = s.pending := rfl
@[simp] theorem State.respond_port (st : Status) (a b : Word) : (s.respond st a b).port = s.port := rfl
@[simp] theorem State.respond_responses (st : Status) (a b : Word) : (s.respond st a b).responses = (s.port, ⟨st, a, b⟩) :: s.responses := rfl
@[simp] theorem State.respond_ring (st : Status) (a b : Word) (c : Channel) : (s.respond st a b).ring c = s.ring c := by cases c <;> rfl

/-! ### take -/
@[simp] theorem State.take_cfg (rest : List Input) : (s.take rest).cfg = s.cfg := rfl
@[simp] theorem State.take_inv (rest : List Input) : (s.take rest).inv = s.inv := rfl
@[simp] theorem State.take_ring0 (rest : List Input) : (s.take rest).ring0 = s.ring0 := rfl
@[simp] theorem State.take_ring1 (rest : List Input) : (s.take rest).ring1 = s.ring1 := rfl
@[simp] theorem State.take_dht (rest : List Input) : (s.take rest).dht = s.dht := rfl
@[simp] theorem State.take_lacrosse (rest : List Input) : (s.take rest).lacrosse = s.lacrosse := rfl
@[simp] theorem State.take_router (rest : List Input) : (s.take rest).router = s.router := rfl
@[simp] theorem State.take_inReset (rest : List Input) : (s.take rest).inReset = s.inReset := rfl
@[simp] theorem State.take_pending (rest : List Input) : (s.take rest).pending = rest := rfl
@[simp] theorem State.take_port (rest : List Input) : (s.take rest).port = s.port := rfl
@[simp] theorem State.take_responses (rest : List Input) : (s.take rest).responses = s.responses := rfl
@[simp] theorem State.take_ring (rest : List Input) (c : Channel) : (s.take rest).ring c = s.ring c := by cases c <;> rfl

/-! ### present -/
@[simp] theorem State.present_cfg (p : Port) (rest : List Input) : (s.present p rest).cfg = s.cfg := rfl
@[simp] theorem State.present_inv (p : Port) (rest : List Input) : (s.present p rest).inv = s.inv := rfl
@[simp] theorem State.present_ring0 (p : Port) (rest : List Input) : (s.present p rest).ring0 = s.ring0 := rfl
@[simp] theorem State.present_ring1 (p : Port) (rest : List Input) : (s.present p rest).ring1 = s.ring1 := rfl
@[simp] theorem State.present_dht (p : Port) (rest : List Input) : (s.present p rest).dht = s.dht := rfl
@[simp] theorem State.present_lacrosse (p : Port) (rest : List Input) : (s.present p rest).lacrosse = s.lacrosse := rfl
@[simp] theorem State.present_router (p : Port) (rest : List Input) : (s.present p rest).router = s.router := rfl
@[simp] theorem State.present_inReset (p : Port) (rest : List Input) : (s.present p rest).inReset = s.inReset := rfl
@[simp] theorem State.present_pending (p : Port) (rest : List Input) : (s.present p rest).pending = rest := rfl
@[simp] theorem State.present_port (p : Port) (rest : List Input) : (s.present p rest).port = p := rfl
@[simp] theorem State.present_responses (p : Port) (rest : List Input) : (s.present p rest).responses = s.responses := rfl
@[simp] theorem State.present_ring (p : Port) (rest : List Input) (c : Channel) : (s.present p rest).ring c = s.ring c := by cases c <;> rfl

/-! ### setRing -/
@[simp] theorem State.setRing_cfg (ch : Channel) (q : Ring) : (s.setRing ch q).cfg = s.cfg := by cases ch <;> rfl
@[simp] theorem State.setRing_inv (ch : Channel) (q : Ring) : (s.setRing ch q).inv = s.inv := by cases ch <;> rfl
@[simp] theorem State.setRing_dht (ch : Channel) (q : Ring) : (s.setRing ch q).dht = s.dht := by cases ch <;> rfl
@[simp] theorem State.setRing_lacrosse (ch : Channel) (q : Ring) : (s.setRing ch q).lacrosse = s.lacrosse := by cases ch <;> rfl
@[simp] theorem State.setRing_router (ch : Channel) (q : Ring) : (s.setRing ch q).router = s.router := by cases ch <;> rfl
@[simp] theorem State.setRing_inReset (ch : Channel) (q : Ring) : (s.setRing ch q).inReset = s.inReset := by cases ch <;> rfl
@[simp] theorem State.setRing_pending (ch : Channel) (q : Ring) : (s.setRing ch q).pending = s.pending := by cases ch <;> rfl
@[simp] theorem State.setRing_port (ch : Channel) (q : Ring) : (s.setRing ch q).port = s.port := by cases ch <;> rfl
@[simp] theorem State.setRing_responses (ch : Channel) (q : Ring) : (s.setRing ch q).responses = s.responses := by cases ch <;> rfl
@[simp] theorem State.setRing_ring_same (ch : Channel) (q : Ring) : (s.setRing ch q).ring ch = q := by cases ch <;> rfl
theorem State.setRing_ring_other {ch c : Channel} (h : c ≠ ch) (q : Ring) : (s.setRing ch q).ring c = s.ring c := by
  cases ch <;> cases c <;> first | rfl | exact absurd rfl h
@[simp] theorem State.setRing_setRing (ch : Channel) (q q' : Ring) : (s.setRing ch q).setRing ch q' = s.setRing ch q' := by cases ch <;> rfl
theorem State.setRing_comm {ch c : Channel} (h : c ≠ ch) (q q' : Ring) :
    (s.setRing c q).setRing ch q' = (s.setRing ch q').setRing c q := by
  cases ch <;> cases c <;> first | rfl | exact absurd rfl h
theorem State.setRing_respond (ch : Channel) (q : Ring) (st : Status) (a b : Word) :
    (s.setRing ch q).respond st a b = (s.respond st a b).setRing ch q := by cases ch <;> rfl
@[simp] theorem State.ring_dht : s.ring .dht = s.ring0 := rfl
@[simp] theorem State.ring_radio : s.ring .radio = s.ring1 := rfl

/-! ### The router's pairs -/
@[simp] theorem Router.setPair_same (q : Router) (src : Source) (kind : Kind) (m : Remembered) :
    (q.setPair src kind m).pair src kind = m := by cases src <;> cases kind <;> rfl
theorem Router.setPair_other (q : Router) {src a : Source} {kind b : Kind} (h : ¬ (a = src ∧ b = kind)) (m : Remembered) :
    (q.setPair src kind m).pair a b = q.pair a b := by
  cases src <;> cases kind <;> cases a <;> cases b <;> first | rfl | exact absurd ⟨rfl, rfl⟩ h
theorem Router.setPair_comm (q : Router) {src a : Source} {kind b : Kind} (h : ¬ (a = src ∧ b = kind)) (m m' : Remembered) :
    (q.setPair a b m).setPair src kind m' = (q.setPair src kind m').setPair a b m := by
  cases src <;> cases kind <;> cases a <;> cases b <;> first | rfl | exact absurd ⟨rfl, rfl⟩ h

/-! ### storeSample -/
@[simp] theorem storeSample_cfg (ch : Channel) (d : Sample) : (storeSample ch d s).cfg = s.cfg := by simp [storeSample]
@[simp] theorem storeSample_inv (ch : Channel) (d : Sample) : (storeSample ch d s).inv = s.inv := by simp [storeSample]
@[simp] theorem storeSample_dht (ch : Channel) (d : Sample) : (storeSample ch d s).dht = s.dht := by simp [storeSample]
@[simp] theorem storeSample_lacrosse (ch : Channel) (d : Sample) : (storeSample ch d s).lacrosse = s.lacrosse := by simp [storeSample]
@[simp] theorem storeSample_router (ch : Channel) (d : Sample) : (storeSample ch d s).router = s.router := by simp [storeSample]
@[simp] theorem storeSample_inReset (ch : Channel) (d : Sample) : (storeSample ch d s).inReset = s.inReset := by simp [storeSample]
@[simp] theorem storeSample_pending (ch : Channel) (d : Sample) : (storeSample ch d s).pending = s.pending := by simp [storeSample]
@[simp] theorem storeSample_port (ch : Channel) (d : Sample) : (storeSample ch d s).port = s.port := by simp [storeSample]
@[simp] theorem storeSample_responses (ch : Channel) (d : Sample) : (storeSample ch d s).responses = s.responses := by simp [storeSample]
@[simp] theorem storeSample_ring_w (ch : Channel) (d : Sample) : ((storeSample ch d s).ring ch).w = (s.ring ch).w + 1 := by simp [storeSample]
@[simp] theorem storeSample_ring_r (ch : Channel) (d : Sample) : ((storeSample ch d s).ring ch).r = (s.ring ch).r := by simp [storeSample]
@[simp] theorem storeSample_ring_prev (ch : Channel) (d : Sample) : ((storeSample ch d s).ring ch).prev = (s.ring ch).prev := by simp [storeSample]
@[simp] theorem storeSample_ring_slots (ch : Channel) (d : Sample) : ((storeSample ch d s).ring ch).slots = Memory.write (s.ring ch).slots (storeSlot ch s) d := by simp [storeSample]
theorem storeSample_ring_other (ch : Channel) (d : Sample) {c : Channel} (h : c ≠ ch) : (storeSample ch d s).ring c = s.ring c := by
  simp [storeSample, State.setRing_ring_other s h]

/-! ### advanceRead -/
@[simp] theorem advanceRead_cfg (ch : Channel) : (advanceRead ch s).cfg = s.cfg := by simp [advanceRead]
@[simp] theorem advanceRead_inv (ch : Channel) : (advanceRead ch s).inv = s.inv := by simp [advanceRead]
@[simp] theorem advanceRead_dht (ch : Channel) : (advanceRead ch s).dht = s.dht := by simp [advanceRead]
@[simp] theorem advanceRead_lacrosse (ch : Channel) : (advanceRead ch s).lacrosse = s.lacrosse := by simp [advanceRead]
@[simp] theorem advanceRead_router (ch : Channel) : (advanceRead ch s).router = s.router := by simp [advanceRead]
@[simp] theorem advanceRead_inReset (ch : Channel) : (advanceRead ch s).inReset = s.inReset := by simp [advanceRead]
@[simp] theorem advanceRead_pending (ch : Channel) : (advanceRead ch s).pending = s.pending := by simp [advanceRead]
@[simp] theorem advanceRead_port (ch : Channel) : (advanceRead ch s).port = s.port := by simp [advanceRead]
@[simp] theorem advanceRead_responses (ch : Channel) : (advanceRead ch s).responses = s.responses := by simp [advanceRead]
@[simp] theorem advanceRead_ring_w (ch : Channel) : ((advanceRead ch s).ring ch).w = (s.ring ch).w := by simp [advanceRead]
@[simp] theorem advanceRead_ring_r (ch : Channel) : ((advanceRead ch s).ring ch).r = (s.ring ch).r + 1 := by simp [advanceRead]
@[simp] theorem advanceRead_ring_prev (ch : Channel) : ((advanceRead ch s).ring ch).prev = (s.ring ch).prev := by simp [advanceRead]
@[simp] theorem advanceRead_ring_slots (ch : Channel) : ((advanceRead ch s).ring ch).slots = (s.ring ch).slots := by simp [advanceRead]
theorem advanceRead_ring_other (ch : Channel) {c : Channel} (h : c ≠ ch) : (advanceRead ch s).ring c = s.ring c := by
  simp [advanceRead, State.setRing_ring_other s h]

/-! ### setPrev -/
@[simp] theorem setPrev_cfg (ch : Channel) (raw : Sample) : (setPrev ch raw s).cfg = s.cfg := by simp [setPrev]
@[simp] theorem setPrev_inv (ch : Channel) (raw : Sample) : (setPrev ch raw s).inv = s.inv := by simp [setPrev]
@[simp] theorem setPrev_dht (ch : Channel) (raw : Sample) : (setPrev ch raw s).dht = s.dht := by simp [setPrev]
@[simp] theorem setPrev_lacrosse (ch : Channel) (raw : Sample) : (setPrev ch raw s).lacrosse = s.lacrosse := by simp [setPrev]
@[simp] theorem setPrev_router (ch : Channel) (raw : Sample) : (setPrev ch raw s).router = s.router := by simp [setPrev]
@[simp] theorem setPrev_inReset (ch : Channel) (raw : Sample) : (setPrev ch raw s).inReset = s.inReset := by simp [setPrev]
@[simp] theorem setPrev_pending (ch : Channel) (raw : Sample) : (setPrev ch raw s).pending = s.pending := by simp [setPrev]
@[simp] theorem setPrev_port (ch : Channel) (raw : Sample) : (setPrev ch raw s).port = s.port := by simp [setPrev]
@[simp] theorem setPrev_responses (ch : Channel) (raw : Sample) : (setPrev ch raw s).responses = s.responses := by simp [setPrev]
@[simp] theorem setPrev_ring_w (ch : Channel) (raw : Sample) : ((setPrev ch raw s).ring ch).w = (s.ring ch).w := by simp [setPrev]
@[simp] theorem setPrev_ring_r (ch : Channel) (raw : Sample) : ((setPrev ch raw s).ring ch).r = (s.ring ch).r := by simp [setPrev]
@[simp] theorem setPrev_ring_prev (ch : Channel) (raw : Sample) : ((setPrev ch raw s).ring ch).prev = raw := by simp [setPrev]
@[simp] theorem setPrev_ring_slots (ch : Channel) (raw : Sample) : ((setPrev ch raw s).ring ch).slots = (s.ring ch).slots := by simp [setPrev]
theorem setPrev_ring_other (ch : Channel) (raw : Sample) {c : Channel} (h : c ≠ ch) : (setPrev ch raw s).ring c = s.ring c := by
  simp [setPrev, State.setRing_ring_other s h]

/-! ### clearCount -/
@[simp] theorem clearCount_cfg  : (clearCount s).cfg = s.cfg := rfl
@[simp] theorem clearCount_inv  : (clearCount s).inv = s.inv := rfl
@[simp] theorem clearCount_ring0  : (clearCount s).ring0 = s.ring0 := rfl
@[simp] theorem clearCount_ring1  : (clearCount s).ring1 = s.ring1 := rfl
@[simp] theorem clearCount_dht  : (clearCount s).dht = ⟨s.dht.fb, 0⟩ := rfl
@[simp] theorem clearCount_lacrosse  : (clearCount s).lacrosse = s.lacrosse := rfl
@[simp] theorem clearCount_router  : (clearCount s).router = s.router := rfl
@[simp] theorem clearCount_inReset  : (clearCount s).inReset = s.inReset := rfl
@[simp] theorem clearCount_pending  : (clearCount s).pending = s.pending := rfl
@[simp] theorem clearCount_port  : (clearCount s).port = s.port := rfl
@[simp] theorem clearCount_responses  : (clearCount s).responses = s.responses := rfl
@[simp] theorem clearCount_ring (c : Channel) : (clearCount s).ring c = s.ring c := by cases c <;> rfl

/-! ### The edges of reset -/
@[simp] theorem beginReset_cfg : (beginReset s).cfg = s.cfg := rfl
@[simp] theorem beginReset_inv : (beginReset s).inv = s.inv := rfl
@[simp] theorem beginReset_ring0 : (beginReset s).ring0 = s.ring0 := rfl
@[simp] theorem beginReset_ring1 : (beginReset s).ring1 = s.ring1 := rfl
@[simp] theorem beginReset_lacrosse : (beginReset s).lacrosse = s.lacrosse := rfl
@[simp] theorem beginReset_router : (beginReset s).router = s.router := rfl
@[simp] theorem beginReset_pending : (beginReset s).pending = s.pending := rfl
@[simp] theorem beginReset_port : (beginReset s).port = s.port := rfl
@[simp] theorem beginReset_responses : (beginReset s).responses = s.responses := rfl
@[simp] theorem beginReset_dht : (beginReset s).dht = s.dht := rfl
@[simp] theorem beginReset_inReset : (beginReset s).inReset = true := rfl
@[simp] theorem beginReset_ring (c : Channel) : (beginReset s).ring c = s.ring c := by cases c <;> rfl
/-- A reset that ends leaves the state of R340 of its build, and the ports' side as it was (R342, log 10). -/
theorem endReset_inReset (h : s.inReset = true) :
    endReset s = { State.resetWith s.cfg with pending := s.pending, port := s.port, responses := s.responses } := if_pos h
theorem endReset_idle (h : s.inReset = false) : endReset s = s := if_neg (by simp [h])

end Sys2Proof.Machine
end

