-- ==== Sys2Proof/Laws/Ops.lean ====
section
/-! SUPPORT. One lemma per shared operation, saying once everything it can do: the port check, responding, the table access, slot selection,
reading a field of the frame, one meaning after another. -/
namespace Sys2Proof.Machine

/-! ### Tables -/

@[simp] theorem tableAt_buildTable (f : Byte → Byte) (b : Byte) : tableAt (buildTable f) b = f b := by
  simp [tableAt, buildTable, allBytes]

theorem mem_allBytes (b : Byte) : b ∈ allBytes :=
  List.mem_map.mpr ⟨b.toNat, List.mem_range.mpr b.isLt, by simp⟩

/-- A permutation takes no value twice (R32). -/
theorem IsPermutation.injective {t : Table} (h : IsPermutation t) {a b : Byte} (hab : tableAt t a = tableAt t b) : a = b :=
  BitVec.eq_of_toNat_eq ((List.Nodup.getElem_inj_iff h).mp hab)

/-- What reading the true inverse at `b` finds, where it finds something. -/
theorem inverseEntry_spec {t : Table} {b i : Byte} (h : tableAt t i = b) : tableAt t (inverseEntry t b) = b := by
  unfold inverseEntry
  split
  · next j hj => simpa using List.find?_some hj
  · next hn => exact absurd h (by simpa using List.find?_eq_none.mp hn i (mem_allBytes i))

/-- A table built from a one-to-one function is a permutation (R32). -/
theorem buildTable_isPermutation {f : Byte → Byte} (hf : ∀ a b, f a = f b → a = b) : IsPermutation (buildTable f) := by
  refine List.Nodup.map_on (fun x _ y _ hxy => hf x y hxy) (List.Nodup.map_on (fun x hx y hy hxy => ?_) List.nodup_range)
  have hx := List.mem_range.mp hx
  have hy := List.mem_range.mp hy
  have := congrArg BitVec.toNat hxy
  simp only [BitVec.toNat_ofNat] at this
  omega

/-- The identity table is a permutation, so `asPermutation` always is (log 6). -/
theorem asPermutation_isPermutation (t : Table) : IsPermutation (asPermutation t) := by
  unfold asPermutation
  split
  · assumption
  · exact buildTable_isPermutation fun _ _ h => h

/-- A permutation is left as it is (log 6). -/
theorem asPermutation_of_isPermutation {t : Table} (h : IsPermutation t) : asPermutation t = t := if_pos h

/-- The build of State.reset is one R343 allows (log 6). -/
theorem params_wf : Config.params.wf := by
  refine ⟨?_, ?_⟩
  · show IsPermutation (asPermutation (buildTable Config.redirEntry)); exact asPermutation_isPermutation _
  · show IsPermutation (asPermutation (buildTable Config.substEntry)); exact asPermutation_isPermutation _

/-! ### Slots -/

theorem capOf_pos (cfg : Params) (ch : Channel) : 0 < capOf cfg ch := Nat.two_pow_pos _

theorem capOf_le (cfg : Params) (ch : Channel) : capOf cfg ch ≤ 2 ^ 16 := by
  unfold capOf
  apply Nat.pow_le_pow_right (by decide)
  cases ch <;> simp only [capBits] <;> omega

/-- The slot of an index is the index modulo the capacity (R51). -/
theorem slotOf_eq_mod (cfg : Params) (ch : Channel) (n : Word) : slotOf cfg ch n = n.toNat % capOf cfg ch := by
  have hc := capOf_le cfg ch
  have hlt : capOf cfg ch - 1 < 2 ^ 32 := by omega
  simp only [slotOf, maskOf, BitVec.toNat_and, BitVec.toNat_ofNat, Nat.mod_eq_of_lt hlt]
  simp [capOf]

/-- Every slot is inside its ring (R22). -/
theorem slotOf_lt (cfg : Params) (ch : Channel) (n : Word) : slotOf cfg ch n < capOf cfg ch := by
  rw [slotOf_eq_mod]; exact Nat.mod_lt _ (capOf_pos cfg ch)

/-- The slot of the `k`-th index after `n`, whatever wraps: the capacity divides `2^32` (R50, R51). -/
theorem slotOf_add (cfg : Params) (ch : Channel) (n : Word) (k : Nat) :
    slotOf cfg ch (n + BitVec.ofNat 32 k) = (n.toNat + k) % capOf cfg ch := by
  have hd : capOf cfg ch ∣ 2 ^ 32 := by
    unfold capOf; apply Nat.pow_dvd_pow; cases ch <;> simp only [capBits] <;> omega
  rw [slotOf_eq_mod, BitVec.toNat_add, BitVec.toNat_ofNat, Nat.mod_mod_of_dvd _ hd, Nat.add_mod, Nat.mod_mod_of_dvd _ hd, ← Nat.add_mod]

/-! ### Windows and bytes -/

theorem inWindow_iff {d : Sample} {a b : Nat} : inWindow d a b = true ↔ a < d.toNat ∧ d.toNat < b := by
  simp only [inWindow, Bool.and_eq_true, decide_eq_true_eq]

/-- Only the radio channel has a noise filter (R156). -/
theorem isNoise_iff {ch : Channel} {d : Sample} : isNoise ch d = true ↔ ch = .radio ∧ d.toNat < 400 := by
  cases ch
  · exact ⟨fun h => Bool.noConfusion h, fun h => by cases h.1⟩
  · exact ⟨fun h => ⟨rfl, of_decide_eq_true h⟩, fun h => decide_eq_true h.2⟩

theorem isLongSync_iff {d : Sample} : isLongSync d = true ↔ 1500 < d.toNat ∧ d.toNat < 1800 := inWindow_iff

theorem isFirstBit_iff {d : Sample} : isFirstBit d = true ↔ 1200 < d.toNat ∧ d.toNat < 1400 := inWindow_iff

/-- The three bytes of a 24-bit value put together from bytes, top byte first (R53). -/
theorem byteOf_triple (x y z : Byte) :
    byteOf (x ++ y ++ z : Triple) 2 = x ∧ byteOf (x ++ y ++ z : Triple) 1 = y ∧ byteOf (x ++ y ++ z : Triple) 0 = z := by
  have h : ∀ i, (x ++ y ++ z : BitVec (8 + 8 + 8)).getLsbD i =
      if i < 8 then z.getLsbD i else if i < 16 then y.getLsbD (i - 8) else x.getLsbD (i - 16) := by
    intro i
    rw [BitVec.getLsbD_append, BitVec.getLsbD_append]
    by_cases h : i < 8
    · simp [h]
    · by_cases h2 : i < 16
      · rw [if_neg h, if_pos (by omega), if_neg h, if_pos h2]
      · rw [if_neg h, if_neg (by omega), if_neg h, if_neg h2, Nat.sub_sub]
  refine ⟨?_, ?_, ?_⟩ <;> (apply BitVec.eq_of_getLsbD_eq; intro i hi; rw [byteOf, BitVec.getLsbD_extractLsb']; simp only [hi, decide_true, Bool.true_and])
  · exact (h _).trans (by rw [if_neg (by omega), if_neg (by omega)]; congr 1; omega)
  · exact (h _).trans (by rw [if_neg (by omega), if_pos (by omega)]; congr 1; omega)
  · exact (h _).trans (by rw [if_pos (by omega)]; congr 1; omega)

/-- The arrays of the state after reset have the canonical form. -/
theorem resetWith_arrays_wf (cfg : Params) :
    Memory.wf (State.resetWith cfg).ring0.slots ∧ Memory.wf (State.resetWith cfg).ring1.slots ∧ Memory.wf (State.resetWith cfg).dht.fb :=
  ⟨List.Pairwise.nil, List.Pairwise.nil, List.Pairwise.nil⟩

/-! ### The port check and the response -/

@[simp] theorem onPort_here {p : Port} {s : State} (h : s.port = p) (body : Result) : onPort p s body = body := if_pos h

@[simp] theorem onPort_elsewhere {p : Port} {s : State} (h : s.port ≠ p) (body : Result) : onPort p s body = raiseIllegal s := if_neg h

/-- Everything a port check can answer: the body on the right port, ILLEGAL on the other. -/
theorem onPort_cases {p : Port} {s : State} {body : Result} {r : Result} (h : onPort p s body = r) :
    (s.port = p ∧ body = r) ∨ (s.port ≠ p ∧ r = .next (s.respond .illegal 0 0)) := by
  by_cases hp : s.port = p
  · exact .inl ⟨hp, by simpa [hp] using h⟩
  · exact .inr ⟨hp, by rw [onPort_elsewhere hp] at h; exact h.symm⟩

/-- The invariant speaks of the core, not of the ports' side. -/
theorem State.Inv.congr {s t : State} (h : s.Inv) (h1 : t.cfg = s.cfg) (h2 : t.inv = s.inv) (h3 : t.ring0 = s.ring0) (h4 : t.ring1 = s.ring1)
    (h5 : t.dht = s.dht) (h6 : t.lacrosse = s.lacrosse) (h7 : t.router = s.router) : t.Inv := by
  refine ⟨h1 ▸ h.build, by rw [h1, h2]; exact h.inverse, ?_, h5 ▸ h.dht, h6 ▸ h.lacrosse, h7 ▸ h.pairs⟩
  intro c
  rw [h1]
  have := h.rings c
  cases c
  · rw [State.ring_dht, h3]; exact this
  · rw [State.ring_radio, h4]; exact this

/-! ### Reading a field of the frame -/

/-- The bits shifted in from a list of bits, first to last (R186). -/
def shiftAll {n : Nat} (acc : BitVec n) (bits : List Bool) : BitVec n := bits.foldl shiftIn acc

/-- Everything reading a field can give (R184): an entry never written, an entry in neither window, or the bits of the whole field. -/
theorem readField_cases (fb : Memory) (first count : Nat) {n : Nat} (acc : BitVec n) :
    (∃ i, i < count ∧ fb.read (first + i) = none ∧ readField fb first count acc = .unwritten (first + i)) ∨
    (∃ i d, i < count ∧ fb.read (first + i) = some d ∧ classify d = none ∧ readField fb first count acc = .invalid) ∨
    (∃ bits : List Bool, bits.length = count ∧
      (∀ i, i < count → ∃ d, fb.read (first + i) = some d ∧ classify d = bits[i]?) ∧
      readField fb first count acc = .bits (shiftAll acc bits)) := by
  induction count generalizing first acc with
  | zero => exact .inr (.inr ⟨[], rfl, by simp, rfl⟩)
  | succ count ih =>
    unfold readField
    split
    · next hr => exact .inl ⟨0, Nat.succ_pos _, hr, rfl⟩
    · next d hr =>
      split
      · next hc => exact .inr (.inl ⟨0, d, Nat.succ_pos _, hr, hc, rfl⟩)
      · next b hc =>
        rcases ih (first + 1) (shiftIn acc b) with ⟨i, hi, hn, he⟩ | ⟨i, d', hi, hn, hc', he⟩ | ⟨bits, hl, hb, he⟩
        · refine .inl ⟨i + 1, by omega, ?_, ?_⟩
          · rw [← hn]; congr 1; omega
          · rw [he]; congr 1; omega
        · refine .inr (.inl ⟨i + 1, d', by omega, ?_, hc', he⟩)
          rw [← hn]; congr 1; omega
        · refine .inr (.inr ⟨b :: bits, by simp [hl], ?_, by rw [he]; rfl⟩)
          intro i hi
          cases i with
          | zero => exact ⟨d, hr, by simpa using hc⟩
          | succ i =>
            obtain ⟨d', h1, h2⟩ := hb i (by omega)
            refine ⟨d', ?_, by simpa using h2⟩
            rw [← h1]; congr 1; omega

/-! ### One command after another -/

@[simp] theorem perform_nil (s : State) : perform [] s = .next s := rfl

theorem perform_cons_next {p : Port} {i : Instr} {s t : State} (h : exec i { s with port := p } = .next t) (rest : List (Port × Instr)) :
    perform ((p, i) :: rest) s = perform rest t := by
  simp only [perform, h]

theorem perform_append_next {cs ds : List (Port × Instr)} {s t : State} (h : perform cs s = .next t) :
    perform (cs ++ ds) s = perform ds t := by
  induction cs generalizing s with
  | nil => cases h; rfl
  | cons c cs ih =>
    obtain ⟨p, i⟩ := c
    simp only [List.cons_append, perform] at h ⊢
    split at h
    · next u hu => exact ih h
    · cases h
    · cases h

end Sys2Proof.Machine
end

