-- ==== Sys2Proof/Laws/Exec.lean ====
section
/-! SUPPORT. Everything a command can do, said once: one inversion lemma per meaning that branches, and one for exec as a whole. -/
namespace Sys2Proof.Machine

/-! ### The answer of a meaning on its port and off it -/

/-- On a port that does not accept it, every command is ILLEGAL (R98, R99). -/
theorem exec_wrongPort {i : Instr} {s : State} (h : acceptedOn s.port i = false) : exec i s = .next (s.respond .illegal 0 0) := by
  cases hp : s.port <;> rw [hp] at h <;> cases i <;> first
    | (simp [acceptedOn] at h; done)
    | exact onPort_elsewhere (by rw [hp]; decide) _

/-- Everything RADIO_PULSE can do to the decoder (R210): the states of R221 and the branch of each. -/
inductive PulseStep (l : Lacrosse) : Lacrosse → Prop where
  /-- A long-sync pulse of the preamble (R211). -/
  | sync (h : l.rs < 3) : PulseStep l { l with rs := l.rs + 1 }
  /-- A miss of the preamble (R211). -/
  | lost (h : l.rs < 3) : PulseStep l { l with rs := 0 }
  /-- The first bit (R212). -/
  | seed (h : l.rs = 3) : PulseStep l ⟨4, true, 1⟩
  /-- A miss of the first bit or of a body bit (R212, R214). -/
  | miss (h : 3 ≤ l.rs) : PulseStep l { l with rs := 0, rb := false }
  /-- A body bit (R215). -/
  | shift (h : 4 ≤ l.rs) (h' : l.rs + 1 ≠ 43) (nb : Bool) : PulseStep l ⟨l.rs + 1, nb, shiftIn l.rreg nb⟩
  /-- The last bit (R218). -/
  | complete (h : l.rs + 1 = 43) (nb : Bool) : PulseStep l ⟨0, nb, shiftIn l.rreg nb⟩

/-- RADIO_PULSE always completes on the consumer port, with one branch of R210 and one response. -/
theorem execRadioPulse_next (d : Sample) {s : State} (hp : s.port = .consumer) :
    ∃ l st r0, PulseStep s.lacrosse l ∧ execRadioPulse d s = .next ((s.setLacrosse l).respond st r0 0) := by
  rw [execRadioPulse, onPort_here hp]
  by_cases h3 : s.lacrosse.rs < 3
  · rw [if_pos h3, preamblePulse]
    split
    · exact ⟨_, _, _, .sync h3, rfl⟩
    · exact ⟨_, _, _, .lost h3, rfl⟩
  · rw [if_neg h3]
    by_cases h4 : s.lacrosse.rs = 3
    · rw [if_pos h4, firstBitPulse]
      split
      · exact ⟨_, _, _, .seed h4, rfl⟩
      · exact ⟨_, _, _, .miss (by omega), rfl⟩
    · rw [if_neg h4]
      split
      · exact ⟨_, _, _, .miss (by omega), rfl⟩
      · next nb _ =>
        unfold bodyPulse
        split
        · next h43 =>
          unfold completeFrame
          split <;> exact ⟨_, _, _, .complete h43 nb, rfl⟩
        · next h43 => exact ⟨_, _, _, .shift (by omega) h43 nb, rfl⟩

/-- A long-sync pulse of the preamble (R211). -/
theorem execRadioPulse_sync {s : State} {d : Sample} (hp : s.port = .consumer) (h : s.lacrosse.rs < 3) (hd : isLongSync d = true) :
    execRadioPulse d s = .next ((s.setLacrosse { s.lacrosse with rs := s.lacrosse.rs + 1 }).respond .noFrame 0 0) := by
  rw [execRadioPulse, onPort_here hp, if_pos h, preamblePulse, if_pos hd]

/-- The first bit (R212). -/
theorem execRadioPulse_first {s : State} {d : Sample} (hp : s.port = .consumer) (h : s.lacrosse.rs = 3) (hd : isFirstBit d = true) :
    execRadioPulse d s = .next ((s.setLacrosse ⟨4, true, 1⟩).respond .noFrame 0 0) := by
  rw [execRadioPulse, onPort_here hp, if_neg (by omega), if_pos h, firstBitPulse, if_pos hd]

/-- A body bit before the last (R215). -/
theorem execRadioPulse_body {s : State} {d : Sample} {nb : Bool} (hp : s.port = .consumer) (h4 : 4 ≤ s.lacrosse.rs)
    (h43 : s.lacrosse.rs + 1 ≠ 43) (hb : bodyBit s.lacrosse.rb d = some nb) :
    execRadioPulse d s = .next ((s.setLacrosse ⟨s.lacrosse.rs + 1, nb, shiftIn s.lacrosse.rreg nb⟩).respond .noFrame 0 0) := by
  rw [execRadioPulse, onPort_here hp, if_neg (by omega), if_neg (by omega), hb]
  simp only
  rw [bodyPulse, if_neg h43]

/-- The completion step gives one response and changes nothing else (R218). -/
theorem completeFrame_cases (reg : Frame) (s : State) :
    (frameChecksum reg = checksumOf s.cfg (framePayload reg) ∧ completeFrame reg s = s.respond .ok (framePayload reg) 0) ∨
    (frameChecksum reg ≠ checksumOf s.cfg (framePayload reg) ∧ completeFrame reg s = s.respond .radioChecksumError 0 0) := by
  unfold completeFrame
  split
  · next h => exact .inl ⟨h, rfl⟩
  · next h => exact .inr ⟨h, rfl⟩

/-- POP of a written slot (R160). -/
theorem execPop_next {ch : Channel} {s : State} {d : Sample} (hp : s.port = .consumer) (hne : (s.ring ch).r ≠ (s.ring ch).w)
    (hd : ringRead ch (readSlot ch s) s = some d) : execPop ch s = .next ((advanceRead ch s).respond .ok (zext32 d) 0) := by
  rw [execPop, onPort_here hp, if_neg hne, hd]

/-- Everything POP can answer with a next state (R160). -/
theorem execPop_cases {ch : Channel} {s t : State} (hp : s.port = .consumer) (h : execPop ch s = .next t) :
    ((s.ring ch).r = (s.ring ch).w ∧ t = s.respond .empty 0 0) ∨
    ((s.ring ch).r ≠ (s.ring ch).w ∧ ∃ d, ringRead ch (readSlot ch s) s = some d ∧ t = (advanceRead ch s).respond .ok (zext32 d) 0) := by
  rw [execPop, onPort_here hp] at h
  split at h
  · next he => exact .inl ⟨he, by cases h; rfl⟩
  · next hne =>
    split at h
    · next d hd => exact .inr ⟨hne, d, hd, by cases h; rfl⟩
    · cases h

/-- Everything DHT_DECODE can answer with a next state: `FN` cleared and one response (R184). -/
theorem execDhtDecode_cases {s t : State} (hp : s.port = .consumer) (h : execDhtDecode s = .next t) :
    ∃ st a b, st ∈ statusesOf .dhtDecode ∧ t = (clearCount s).respond st a b := by
  rw [execDhtDecode, onPort_here hp] at h
  split at h
  · cases h; exact ⟨_, _, _, by decide, rfl⟩
  · split at h
    · cases h
    · cases h; exact ⟨_, _, _, by decide, rfl⟩
    · split at h
      · cases h
      · cases h; exact ⟨_, _, _, by decide, rfl⟩
      · split at h
        · cases h
        · cases h; exact ⟨_, _, _, by decide, rfl⟩
        · cases h
          unfold finishFrame
          split <;> exact ⟨_, _, _, by decide, rfl⟩

/-- Everything READ_STATE can answer on the consumer port (R270, R271, R272). -/
theorem execReadState_cases (sel8 : Byte) (idx : Sample) {s : State} (hp : s.port = .consumer) :
    (selectElement s.cfg sel8 idx = none ∧ execReadState sel8 idx s = .next (s.respond .illegal 0 0)) ∨
    ∃ e, selectElement s.cfg sel8 idx = some e ∧
      ((∃ v, elementValue s e = .ok v ∧ execReadState sel8 idx s = .next (s.respond .ok v 0)) ∨
       ∃ f, elementValue s e = .error f ∧ execReadState sel8 idx s = .fault f) := by
  rw [execReadState, onPort_here hp]
  split
  · next h => exact .inl ⟨h, rfl⟩
  · next e h =>
    refine .inr ⟨e, h, ?_⟩
    split
    · next v hv => exact .inl ⟨v, hv, rfl⟩
    · next f hf => exact .inr ⟨f, hf, rfl⟩

/-- What a command does to the state before it responds, by the port that issued it (R38): nothing else ever happens. -/
inductive Effect (s : State) : Port → State → Prop where
  | unchanged (p : Port) : Effect s p s
  | stored (ch : Channel) (d : Sample) : Effect s .producer (storeSample ch d s)
  | snapshot (ch : Channel) (raw : Sample) : Effect s .producer (setPrev ch raw s)
  | captured (ch : Channel) (d raw : Sample) : Effect s .producer (storeSample ch d (setPrev ch raw s))
  | popped (ch : Channel) (h : (s.ring ch).r ≠ (s.ring ch).w) : Effect s .consumer (advanceRead ch s)
  | fed (d : Sample) : Effect s .consumer (s.setDht ⟨feedEntry s.dht d, nextCount s.dht.fn⟩)
  | cleared : Effect s .consumer (clearCount s)
  | pulsed (l : Lacrosse) (h : PulseStep s.lacrosse l) : Effect s .consumer (s.setLacrosse l)
  | remembered (src : Source) (kind : Kind) (v : Word) :
      Effect s .consumer (s.setRouter (s.router.setPair src kind ⟨v, true⟩))

/-- Every command that answers a next state has one of these effects and then gives one response. -/
theorem exec_effect {i : Instr} {s t : State} (h : exec i s = .next t) :
    ∃ u st a b, Effect s s.port u ∧ t = u.respond st a b := by
  by_cases hacc : acceptedOn s.port i = false
  · rw [exec_wrongPort hacc] at h
    cases h
    exact ⟨s, _, _, _, .unchanged _, rfl⟩
  · cases hp : s.port <;> rw [hp] at hacc <;> cases i <;> first
      | exact absurd rfl hacc
      | skip
    case producer.nop => cases h; exact ⟨s, _, _, _, .unchanged _, rfl⟩
    case producer.push ch d =>
      simp only [exec, execPush, onPort_here hp] at h
      cases h; exact ⟨_, _, _, _, .stored ch d, rfl⟩
    case producer.capture ch raw =>
      simp only [exec, execCapture, onPort_here hp] at h
      split at h <;> cases h
      · exact ⟨_, _, _, _, .snapshot ch raw, rfl⟩
      · exact ⟨_, _, _, _, .captured ch _ raw, rfl⟩
    case consumer.pop ch =>
      rcases execPop_cases hp h with ⟨_, rfl⟩ | ⟨hne, d, _, rfl⟩
      · exact ⟨s, _, _, _, .unchanged _, rfl⟩
      · exact ⟨_, _, _, _, .popped ch hne, rfl⟩
    case consumer.dhtFeed d =>
      simp only [exec, execDhtFeed, onPort_here hp] at h
      cases h; exact ⟨_, _, _, _, .fed d, rfl⟩
    case consumer.dhtClear =>
      simp only [exec, execDhtClear, onPort_here hp] at h
      cases h; exact ⟨_, _, _, _, .cleared, rfl⟩
    case consumer.dhtDecode =>
      obtain ⟨st, a, b, _, rfl⟩ := execDhtDecode_cases hp h
      exact ⟨_, _, _, _, .cleared, rfl⟩
    case consumer.radioPulse d =>
      obtain ⟨l, st, r0, hl, he⟩ := execRadioPulse_next d hp
      rw [exec, he] at h
      cases h; exact ⟨_, _, _, _, .pulsed l hl, rfl⟩
    case consumer.route src kind raw =>
      simp only [exec, execRoute, onPort_here hp] at h
      split at h <;> cases h
      · exact ⟨_, _, _, _, .remembered src kind _, rfl⟩
      · exact ⟨s, _, _, _, .unchanged _, rfl⟩
    case consumer.readState sel8 idx =>
      rcases execReadState_cases sel8 idx hp with ⟨_, he⟩ | ⟨e, _, ⟨v, _, he⟩ | ⟨f, _, he⟩⟩ <;> rw [exec, he] at h <;> cases h
      · exact ⟨s, _, _, _, .unchanged _, rfl⟩
      · exact ⟨s, _, _, _, .unchanged _, rfl⟩
    all_goals
      simp only [exec, execNop, execCrcRaw, execChecksum, execVerify, execSubstEnc, execSubstDec, execSubst24Enc, execSubst24Dec,
        execFrameEncode, onPort_here hp] at h
      cases h; exact ⟨s, _, _, _, .unchanged _, rfl⟩

/-- No effect touches the constants, `INV` or the ports' side. -/
theorem Effect.fixed {s u : State} {p : Port} (h : Effect s p u) :
    u.cfg = s.cfg ∧ u.inv = s.inv ∧ u.inReset = s.inReset ∧ u.pending = s.pending ∧ u.port = s.port ∧ u.responses = s.responses := by
  cases h <;> simp

/-! ### Steps -/

/-- Everything a step can do with a next state: idle, an edge of reset, a word of no row, a command. -/
theorem step_cases {s t : State} (h : step s = .next t) :
    (s.pending = [] ∧ t = s) ∨
    (∃ rest, s.pending = .resetBegin :: rest ∧ t = beginReset (s.take rest)) ∨
    (∃ rest, s.pending = .resetEnd :: rest ∧ t = endReset (s.take rest)) ∨
    (∃ p w rest, s.pending = .command p w :: rest ∧ s.inReset = false ∧
      ((decodeWord w = .error .noMatchingRow ∧ t = (s.present p rest).respond .illegal 0 0) ∨
       ∃ i, decodeWord w = .ok i ∧ exec i (s.present p rest) = .next t)) := by
  unfold step at h
  split at h
  · next hp => cases h; exact .inl ⟨hp, rfl⟩
  · next rest hp => cases h; exact .inr (.inl ⟨rest, hp, rfl⟩)
  · next rest hp => cases h; exact .inr (.inr (.inl ⟨rest, hp, rfl⟩))
  · next p w rest hp =>
    split at h
    · cases h
    · next hr =>
      refine .inr (.inr (.inr ⟨p, w, rest, hp, by simpa using hr, ?_⟩))
      unfold runWord at h
      split at h
      · next i hi => exact .inr ⟨i, hi, h⟩
      · next e he => cases e; cases h; exact .inl ⟨he, rfl⟩

end Sys2Proof.Machine
end

