-- ==== Sys2Proof/Laws/PerInstr.lean ====
section
/-! SUPPORT. Statements about every command as syntax, one lemma per constructor of Instr. -/
namespace Sys2Proof.Laws.EncodedRow

/-- The word of a command is accepted by a row of R84, and that row builds the command back from it (R82, R84). -/
def Statement (i : Instr) : Prop := ∃ r ∈ opcodeMap, r.accepts (encode i) = true ∧ r.build (encode i) = i

/-- A row of the map, given by its place, that accepts a packed word and builds `i` from it. -/
theorem of_row {i : Instr} {op sel : BitVec 4} {x8 : Byte} {a16 : Sample} {b32 : Word} (n : Fin opcodeMap.length)
    (he : encode i = packFields op sel x8 a16 b32)
    (hop : op &&& fieldOp opcodeMap[n].mask = fieldOp opcodeMap[n].pattern)
    (hsel : sel &&& fieldSel opcodeMap[n].mask = fieldSel opcodeMap[n].pattern)
    (hx8 : x8 &&& fieldX8 opcodeMap[n].mask = fieldX8 opcodeMap[n].pattern)
    (ha16 : a16 &&& fieldA16 opcodeMap[n].mask = fieldA16 opcodeMap[n].pattern)
    (hb32 : b32 &&& fieldB32 opcodeMap[n].mask = fieldB32 opcodeMap[n].pattern)
    (hb : opcodeMap[n].build (packFields op sel x8 a16 b32) = i) : Statement i :=
  ⟨opcodeMap[n], List.getElem_mem _, he ▸ (Row.accepts_packFields ..).mpr ⟨hop, hsel, hx8, ha16, hb32⟩, he ▸ hb⟩

/-- A field whose mask is 0 may hold anything. -/
theorem free {n : Nat} (v : BitVec n) {m p : BitVec n} (hm : m = 0) (hp : p = 0) : v &&& m = p := by
  subst hm; subst hp; simp

theorem channelSel_fixed (ch : Channel) : channelSel ch &&& 0xE = 0 := by cases ch <;> rfl

theorem routeSel_fixed (src : Source) (kind : Kind) : routeSel src kind &&& 0xC = 0 := by cases src <;> cases kind <;> rfl

theorem triple_fixed (v : Triple) : v.setWidth 32 &&& 0xFF000000 = 0 := by
  apply BitVec.eq_of_getLsbD_eq
  intro i hi
  by_cases h : i < 24
  · have : (0xFF000000#32).getLsbD i = false := by
      have : ∀ k : Fin 24, (0xFF000000#32).getLsbD k.val = false := by decide
      exact this ⟨i, h⟩
    simp [this]
  · simp [BitVec.getLsbD_of_ge v i (by omega)]

theorem triple_back (v : Triple) : (v.setWidth 32).extractLsb' 0 24 = v := by
  apply BitVec.eq_of_toNat_eq
  simp only [BitVec.extractLsb'_toNat, BitVec.toNat_setWidth]
  omega

theorem nop : Statement .nop := of_row ⟨0, by decide⟩ rfl rfl rfl rfl rfl rfl rfl

theorem push (ch : Channel) (d : Sample) : Statement (.push ch d) :=
  of_row ⟨1, by decide⟩ rfl rfl (by exact channelSel_fixed ch) rfl (free d rfl rfl) rfl (by simp [opcodeMap])

theorem capture (ch : Channel) (raw : Sample) : Statement (.capture ch raw) :=
  of_row ⟨2, by decide⟩ rfl rfl (by exact channelSel_fixed ch) rfl (free raw rfl rfl) rfl (by simp [opcodeMap])

theorem pop (ch : Channel) : Statement (.pop ch) :=
  of_row ⟨3, by decide⟩ rfl rfl (by exact channelSel_fixed ch) rfl rfl rfl (by simp [opcodeMap])

theorem crcRaw (p : Word) : Statement (.crcRaw p) :=
  of_row ⟨4, by decide⟩ rfl rfl rfl rfl rfl (free p rfl rfl) (by simp [opcodeMap])

theorem checksum (p : Word) : Statement (.checksum p) :=
  of_row ⟨5, by decide⟩ rfl rfl rfl rfl rfl (free p rfl rfl) (by simp [opcodeMap])

theorem verify (p : Word) (c : Byte) : Statement (.verify p c) :=
  of_row ⟨6, by decide⟩ rfl rfl rfl (free c rfl rfl) rfl (free p rfl rfl) (by simp [opcodeMap])

theorem substEnc (b : Byte) : Statement (.substEnc b) :=
  of_row ⟨7, by decide⟩ rfl rfl rfl (free b rfl rfl) rfl rfl (by simp [opcodeMap])

theorem substDec (b : Byte) : Statement (.substDec b) :=
  of_row ⟨8, by decide⟩ rfl rfl rfl (free b rfl rfl) rfl rfl (by simp [opcodeMap])

theorem subst24Enc (v : Triple) : Statement (.subst24Enc v) :=
  of_row ⟨9, by decide⟩ rfl rfl rfl rfl rfl (by exact triple_fixed v) (by simp [opcodeMap, triple_back])

theorem subst24Dec (v : Triple) : Statement (.subst24Dec v) :=
  of_row ⟨10, by decide⟩ rfl rfl rfl rfl rfl (by exact triple_fixed v) (by simp [opcodeMap, triple_back])

theorem dhtFeed (d : Sample) : Statement (.dhtFeed d) :=
  of_row ⟨11, by decide⟩ rfl rfl rfl rfl (free d rfl rfl) rfl (by simp [opcodeMap])

theorem dhtClear : Statement .dhtClear := of_row ⟨12, by decide⟩ rfl rfl rfl rfl rfl rfl rfl

theorem dhtDecode : Statement .dhtDecode := of_row ⟨13, by decide⟩ rfl rfl rfl rfl rfl rfl rfl

theorem radioPulse (d : Sample) : Statement (.radioPulse d) :=
  of_row ⟨14, by decide⟩ rfl rfl rfl rfl (free d rfl rfl) rfl (by simp [opcodeMap])

theorem frameEncode (sync : Byte) (p : Word) : Statement (.frameEncode sync p) :=
  of_row ⟨15, by decide⟩ rfl rfl rfl (free sync rfl rfl) rfl (free p rfl rfl) (by simp [opcodeMap])

theorem route (src : Source) (kind : Kind) (raw : Word) : Statement (.route src kind raw) :=
  of_row ⟨16, by decide⟩ rfl rfl (by exact routeSel_fixed src kind) rfl rfl (free raw rfl rfl) (by simp [opcodeMap])

theorem readState (sel8 : Byte) (idx : Sample) : Statement (.readState sel8 idx) :=
  of_row ⟨17, by decide⟩ rfl rfl rfl (free sel8 rfl rfl) (free idx rfl rfl) rfl (by simp [opcodeMap])

end Sys2Proof.Laws.EncodedRow
end

