-- ==== Sys2Proof/Tests/Slice0.lean ====
section
/-! SUPPORT. The model's own tests. Expected results are those of spec/95_test_vectors.md (named V-...), of the tables of the spec, or worked
out from the rule named. -/
namespace Sys2Proof.Tests.Slice0
open Sys2Proof Sys2Proof.Machine

/-! ### The build the vectors are for (95_test_vectors.md section 1) -/

/-- TC1. -/
def tc1 : Params :=
  ⟨6, 2, crcTable0x31, buildTable fun x => x ^^^ 0xFF, buildTable fun x => x + 0x11, .trueInverse⟩

/-- The state after reset under TC1. -/
def s0 : State := State.resetWith tc1

/-- The same with the consumer port presenting. -/
def c0 : State := { s0 with port := .consumer }

/-- The response one command word gets in a state. -/
def answer (p : Port) (w : Command) (s : State) : Option Response :=
  match step { s with pending := [.command p w] } with
  | .next t => (t.responses.head?).map Prod.snd
  | .fault _ => none
  | .refused _ => none

/-- A field of the state after one command word. -/
def after {α : Type} (f : State → α) (p : Port) (w : Command) (s : State) : Option α :=
  match step { s with pending := [.command p w] } with
  | .next t => some (f t)
  | .fault _ => none
  | .refused _ => none

/-! ### Well-formedness: each check refuses an ill-formed term -/

theorem test_wf_unknown_selector : (Instr.readState 0x06 0).wellFormed = false := by decide +kernel
theorem test_wf_scalar_with_index : (Instr.readState 0x00 1).wellFormed = false := by decide +kernel
theorem test_wf_entry_above_42 : (Instr.readState 0x22 43).wellFormed = false := by decide +kernel
theorem test_wf_accepts : (Instr.readState 0x22 42).wellFormed = true ∧ (Instr.readState 0x31 0).wellFormed = true ∧
    (Instr.readState 0x21 65535).wellFormed = true := by decide +kernel

/-! ### Decoding: one word per row, from the vectors -/

theorem test_decode_nop : decodeWord 0x0000000000000000 = .ok .nop := by decide +kernel
theorem test_decode_push : decodeWord 0x00000000000A0011 = .ok (.push .radio 10) := by decide +kernel
theorem test_decode_capture : decodeWord 0x0000000012340002 = .ok (.capture .dht 0x1234) := by decide +kernel
theorem test_decode_pop : decodeWord 0x0000000000000013 = .ok (.pop .radio) := by decide +kernel
theorem test_decode_crcRaw : decodeWord 0x9A45236700000004 = .ok (.crcRaw 0x9A452367) := by decide +kernel
theorem test_decode_checksum : decodeWord 0xDEADBEEF00000005 = .ok (.checksum 0xDEADBEEF) := by decide +kernel
theorem test_decode_verify : decodeWord 0x1234567800003706 = .ok (.verify 0x12345678 0x37) := by decide +kernel
theorem test_decode_substEnc : decodeWord 0x000000000000EE07 = .ok (.substEnc 0xEE) := by decide +kernel
theorem test_decode_substDec : decodeWord 0x000000000000EF17 = .ok (.substDec 0xEF) := by decide +kernel
theorem test_decode_subst24Enc : decodeWord 0x0001020300000008 = .ok (.subst24Enc 0x010203) := by decide +kernel
theorem test_decode_subst24Dec : decodeWord 0x0045236700000018 = .ok (.subst24Dec 0x452367) := by decide +kernel
theorem test_decode_dhtFeed : decodeWord 0x0000000000FF0009 = .ok (.dhtFeed 255) := by decide +kernel
theorem test_decode_dhtClear : decodeWord 0x000000000000000A = .ok .dhtClear := by decide +kernel
theorem test_decode_dhtDecode : decodeWord 0x000000000000000B = .ok .dhtDecode := by decide +kernel
theorem test_decode_radioPulse : decodeWord 0x000000000514000C = .ok (.radioPulse 1300) := by decide +kernel
theorem test_decode_frameEncode : decodeWord 0xFF12345600009A0D = .ok (.frameEncode 0x9A 0xFF123456) := by decide +kernel
theorem test_decode_route_temp : decodeWord 0x000002D50000001E = .ok (.route .radio .temp 725) := by decide +kernel
theorem test_decode_route_hum : decodeWord 0x0000028C0000002E = .ok (.route .wired .hum 0x28C) := by decide +kernel
theorem test_decode_readState : decodeWord 0x000000000003210F = .ok (.readState 0x21 3) := by decide +kernel

/-- V-ENC-3, V-ENC-6 to V-ENC-15: a reserved bit or an unassigned selector is no command. -/
theorem test_decode_reserved :
    [0x10, 0x23, 0x0000000100000012, 0x104, 0x27, 0x0100000000000008, 0x10A, 0x1000A, 0x1000D, 0x4E, 0x3F].all
      (fun w => (decodeTableWord 64 w).isNone) = true := by decide +kernel

/-! ### The CRC table of R112 as the spec prints it -/

/-- The printed rows. -/
def printedTable : List Nat :=
  [0x00, 0x31, 0x62, 0x53, 0xC4, 0xF5, 0xA6, 0x97, 0xB9, 0x88, 0xDB, 0xEA, 0x7D, 0x4C, 0x1F, 0x2E] ++
  [0x43, 0x72, 0x21, 0x10, 0x87, 0xB6, 0xE5, 0xD4, 0xFA, 0xCB, 0x98, 0xA9, 0x3E, 0x0F, 0x5C, 0x6D] ++
  [0x86, 0xB7, 0xE4, 0xD5, 0x42, 0x73, 0x20, 0x11, 0x3F, 0x0E, 0x5D, 0x6C, 0xFB, 0xCA, 0x99, 0xA8] ++
  [0xC5, 0xF4, 0xA7, 0x96, 0x01, 0x30, 0x63, 0x52, 0x7C, 0x4D, 0x1E, 0x2F, 0xB8, 0x89, 0xDA, 0xEB] ++
  [0x3D, 0x0C, 0x5F, 0x6E, 0xF9, 0xC8, 0x9B, 0xAA, 0x84, 0xB5, 0xE6, 0xD7, 0x40, 0x71, 0x22, 0x13] ++
  [0x7E, 0x4F, 0x1C, 0x2D, 0xBA, 0x8B, 0xD8, 0xE9, 0xC7, 0xF6, 0xA5, 0x94, 0x03, 0x32, 0x61, 0x50] ++
  [0xBB, 0x8A, 0xD9, 0xE8, 0x7F, 0x4E, 0x1D, 0x2C, 0x02, 0x33, 0x60, 0x51, 0xC6, 0xF7, 0xA4, 0x95] ++
  [0xF8, 0xC9, 0x9A, 0xAB, 0x3C, 0x0D, 0x5E, 0x6F, 0x41, 0x70, 0x23, 0x12, 0x85, 0xB4, 0xE7, 0xD6] ++
  [0x7A, 0x4B, 0x18, 0x29, 0xBE, 0x8F, 0xDC, 0xED, 0xC3, 0xF2, 0xA1, 0x90, 0x07, 0x36, 0x65, 0x54] ++
  [0x39, 0x08, 0x5B, 0x6A, 0xFD, 0xCC, 0x9F, 0xAE, 0x80, 0xB1, 0xE2, 0xD3, 0x44, 0x75, 0x26, 0x17] ++
  [0xFC, 0xCD, 0x9E, 0xAF, 0x38, 0x09, 0x5A, 0x6B, 0x45, 0x74, 0x27, 0x16, 0x81, 0xB0, 0xE3, 0xD2] ++
  [0xBF, 0x8E, 0xDD, 0xEC, 0x7B, 0x4A, 0x19, 0x28, 0x06, 0x37, 0x64, 0x55, 0xC2, 0xF3, 0xA0, 0x91] ++
  [0x47, 0x76, 0x25, 0x14, 0x83, 0xB2, 0xE1, 0xD0, 0xFE, 0xCF, 0x9C, 0xAD, 0x3A, 0x0B, 0x58, 0x69] ++
  [0x04, 0x35, 0x66, 0x57, 0xC0, 0xF1, 0xA2, 0x93, 0xBD, 0x8C, 0xDF, 0xEE, 0x79, 0x48, 0x1B, 0x2A] ++
  [0xC1, 0xF0, 0xA3, 0x92, 0x05, 0x34, 0x67, 0x56, 0x78, 0x49, 0x1A, 0x2B, 0xBC, 0x8D, 0xDE, 0xEF] ++
  [0x82, 0xB3, 0xE0, 0xD1, 0x46, 0x77, 0x24, 0x15, 0x3B, 0x0A, 0x59, 0x68, 0xFF, 0xCE, 0x9D, 0xAC]

theorem test_crc_table : crcTable0x31.entries.map BitVec.toNat = printedTable := by decide +kernel

/-! ### The vectors of 95_test_vectors.md, one step each -/

/-- V-ENC-1, V-ENC-3. -/
theorem test_nop : answer .producer 0 s0 = some ⟨.ok, 0, 0⟩ ∧ answer .producer 0x10 s0 = some ⟨.illegal, 0, 0⟩ := by decide +kernel
/-- V-ENC-4, V-ENC-5: the wrong port. -/
theorem test_wrong_port : answer .consumer 0x1 s0 = some ⟨.illegal, 0, 0⟩ ∧ answer .producer 0x3 s0 = some ⟨.illegal, 0, 0⟩ := by
  decide +kernel
/-- V-RING-5: the index wraps, the slot is 3. -/
theorem test_push_wrap : after State.ring1 .producer 0x0000000000070011 { s0 with ring1 := ⟨0xFFFFFFFF, 0xFFFFFFFF, [], 0⟩ } =
    some ⟨0, 0xFFFFFFFF, [(3, 7)], 0⟩ := by decide +kernel
/-- V-RING-9, V-RING-11: the filter, and the counter wrap. -/
theorem test_capture_radio :
    after State.ring1 .producer 0x00000000018F0012 s0 = some ⟨0, 0, [], 399⟩ ∧
    after State.ring1 .producer 0x00000000018F0012 { s0 with ring1 := ⟨0, 0, [], 0xFFFF⟩ } = some ⟨1, 0, [(0, 400)], 0x18F⟩ := by
  decide +kernel
/-- V-RING-8: channel 0 is not filtered. -/
theorem test_capture_dht : after State.ring0 .producer 0x0000000012340002 { s0 with ring0 := ⟨0, 0, [], 0x1234⟩ } =
    some ⟨1, 0, [(0, 0)], 0x1234⟩ := by decide +kernel
/-- V-RING-6, V-RING-7: the test is equality, not order. -/
theorem test_pop : answer .consumer 0x13 { s0 with ring1 := ⟨0, 0xFFFFFFFF, [(3, 7)], 0⟩ } = some ⟨.ok, 7, 0⟩ ∧
    answer .consumer 0x13 { s0 with ring1 := ⟨0, 0, [(3, 7)], 0⟩ } = some ⟨.empty, 0, 0⟩ := by decide +kernel
/-- V-CKS-3, V-CKS-4. -/
theorem test_crcRaw : answer .consumer 0x8000000000000004 s0 = some ⟨.ok, 0xF1, 0⟩ ∧
    answer .consumer 0x1234567800000004 s0 = some ⟨.ok, 0x37, 0⟩ := by decide +kernel
/-- V-CKS-6, V-CKS-9. -/
theorem test_checksum : answer .consumer 0x9A45236700000005 s0 = some ⟨.ok, 0x6D, 0⟩ ∧
    answer .consumer 0x000000FF00000005 s0 = some ⟨.ok, 0x53, 0⟩ := by decide +kernel
/-- V-CKS-20, V-CKS-21. -/
theorem test_verify : answer .consumer 0x123456780000C806 s0 = some ⟨.ok, 1, 0⟩ ∧
    answer .consumer 0x1234567800003706 s0 = some ⟨.ok, 0, 0⟩ := by decide +kernel
/-- V-SUB-4, V-SUB-5. -/
theorem test_substEnc : answer .consumer 0x000000000000EE07 s0 = some ⟨.ok, 0xFF, 0⟩ ∧
    answer .consumer 0x000000000000EF07 s0 = some ⟨.ok, 0x00, 0⟩ := by decide +kernel
/-- V-SUB-1. -/
theorem test_substDec : answer .consumer 0x0000000000000017 s0 = some ⟨.ok, 0xEF, 0⟩ := by decide +kernel
/-- V-SUB-7: REFERENCE_ZERO. -/
theorem test_substDec_zero : answer .consumer 0x000000000000FF17 (State.resetWith { tc1 with invMode := .referenceZero }) =
    some ⟨.ok, 0, 0⟩ := by decide +kernel
/-- V-SUB-11: a swap, not a rotation. -/
theorem test_subst24Enc : answer .consumer 0x0012345600000008 s0 = some ⟨.ok, 0x452367, 0⟩ := by decide +kernel
/-- V-SUB-11. -/
theorem test_subst24Dec : answer .consumer 0x0045236700000018 s0 = some ⟨.ok, 0x123456, 0⟩ ∧
    answer .consumer 0x0012345600000018 s0 = some ⟨.ok, 0x230145, 0⟩ := by decide +kernel
/-- V-DHT-6: the 44th duration is counted and not stored. -/
theorem test_dhtFeed : after State.dht .consumer 0x0000000000FF0009 s0 = some ⟨[(0, 255)], 1⟩ ∧
    after State.dht .consumer 0x0000000000550009 { s0 with dht := ⟨[(42, 7)], 43⟩ } = some ⟨[(42, 7)], 44⟩ := by decide +kernel
/-- R181. -/
theorem test_dhtClear : after State.dht .consumer 0xA { s0 with dht := ⟨[(0, 160)], 1⟩ } = some ⟨[(0, 160)], 0⟩ := by decide +kernel

/-- A frame buffer of 43 durations. -/
def frameOf (ds : List Nat) : Memory := (List.range 43).zip (ds.map (BitVec.ofNat 16))
/-- The durations of V-DHT-1. -/
def vDht1 : List Nat :=
  [160, 160, 160] ++ [85, 85, 85, 85, 85, 85, 125, 85, 125, 85, 85, 85, 125, 125, 85, 85] ++
  [85, 85, 85, 85, 85, 85, 85, 85, 85, 125, 125, 85, 125, 85, 85, 125] ++ [125, 125, 125, 125, 85, 125, 125, 125]
/-- The state before DHT_DECODE of V-DHT-1. -/
def d1 : State := { c0 with dht := ⟨frameOf vDht1, 43⟩ }

/-- V-DHT-1, V-DHT-18. -/
theorem test_dhtDecode : answer .consumer 0xB d1 = some ⟨.ok, 0x28C, 0x69⟩ ∧
    answer .consumer 0xB { d1 with dht := ⟨frameOf (vDht1.set 42 85), 43⟩ } = some ⟨.checksumError, 0, 0⟩ := by decide +kernel
/-- V-DHT-10, V-DHT-13, V-DHT-15, V-DHT-5: the bounds are not in the windows. -/
theorem test_dhtDecode_errors :
    answer .consumer 0xB { d1 with dht := ⟨frameOf (vDht1.set 3 100), 43⟩ } = some ⟨.classErrorHum, 0, 0⟩ ∧
    answer .consumer 0xB { d1 with dht := ⟨frameOf (vDht1.set 19 140), 43⟩ } = some ⟨.classErrorTemp, 0, 0⟩ ∧
    answer .consumer 0xB { d1 with dht := ⟨frameOf (vDht1.set 35 105), 43⟩ } = some ⟨.classErrorCks, 0, 0⟩ ∧
    answer .consumer 0xB { d1 with dht := ⟨frameOf vDht1, 42⟩ } = some ⟨.lengthError, 0, 0⟩ := by decide +kernel
/-- V-RAD-17, V-RAD-16: after a 1, 599 is a 0 and 600 is in no window. -/
theorem test_radioPulse_body : after State.lacrosse .consumer 0x000000000257000C { s0 with lacrosse := ⟨4, true, 1⟩ } = some ⟨5, false, 2⟩ ∧
    after State.lacrosse .consumer 0x000000000258000C { s0 with lacrosse := ⟨4, true, 1⟩ } = some ⟨0, false, 1⟩ := by decide +kernel
/-- V-RAD-1 pulse 43, V-RAD-24. -/
theorem test_radioPulse_last :
    answer .consumer 0x000000000384000C { s0 with lacrosse := ⟨42, false, 0x4D2291B3B6⟩ } = some ⟨.ok, 0x9A452367, 0⟩ ∧
    answer .consumer 0x0000000002BC000C { s0 with lacrosse := ⟨42, false, 0x4D2291B3B6⟩ } = some ⟨.radioChecksumError, 0, 0⟩ := by
  decide +kernel
/-- V-FE-2, V-FE-5: `p[31:24]` is not read. -/
theorem test_frameEncode : answer .consumer 0xFF12345600009A0D s0 = some ⟨.ok, 0x9A452367, 0x6D⟩ ∧
    answer .consumer 0x00ABCDEF0000000D s0 = some ⟨.ok, 0x00DEBC00, 0xAE⟩ := by decide +kernel
/-- V-RT-1, V-RT-4. -/
theorem test_route : answer .consumer 0x000001900000001E s0 = some ⟨.forwarded, 0xFFFFFF9C, 1⟩ ∧
    answer .consumer 0x1999999A0000003E s0 = some ⟨.forwarded, 4, 3⟩ := by decide +kernel
/-- V-RT-6: an equal value of a pair already forwarded. -/
theorem test_route_suppressed : answer .consumer 0xE { s0 with router := { s0.router with wiredTemp := ⟨0, true⟩ } } =
    some ⟨.suppressed, 0, 0⟩ := by decide +kernel
/-- V-RS-4, V-RS-8. -/
theorem test_readState : answer .consumer 0x000000000000310F s0 = some ⟨.ok, 4, 0⟩ ∧
    answer .consumer 0x000000000004210F s0 = some ⟨.illegal, 0, 0⟩ := by decide +kernel
/-- V-RS-9, V-RS-10: a slot and an entry never written. -/
theorem test_readState_unwritten : exec (.readState 0x21 3) c0 = .fault (.unwrittenSlot .radio 3) ∧
    exec (.readState 0x22 42) c0 = .fault (.unwrittenEntry 42) := ⟨rfl, rfl⟩

/-! ### A program's first instruction after reset (log 11) -/

/-- Whether a result is a next state with one response in it. -/
def answered : Result → Bool
  | .next t => t.responses.length == 1
  | .fault _ => false
  | .refused _ => false

/-- A word of every row of R84, placed by withFetchWord, is run by the very next step after reset. -/
theorem test_first_instruction :
    [0x0, 0xA0001, 0x12340002, 0x3, 0x4, 0x5, 0x6, 0x7, 0x17, 0x8, 0x18, 0x550009, 0xA, 0xB, 0x640000C, 0xD, 0xE, 0x80F].all
      (fun w => (decodeTableWord 64 w).isSome && answered (step (State.reset.withFetchWord 64 w))) = true := by decide +kernel

/-! ### Witnesses: for every statement with hypotheses a concrete state and operands that meet them together, one for each clause -/

theorem tc1_wf : tc1.wf :=
  ⟨buildTable_isPermutation fun a b h => by simpa using congrArg (· ^^^ 0xFF#8) h,
   buildTable_isPermutation fun a b h => by simpa using h⟩

/-- A state with the given parts of TC1's core, everything else as after reset, meets the invariant where the parts do. -/
theorem inv_of_parts {r : Machine.Ring} {d : Dht} {l : Lacrosse} (hr : RingInv 4 r) (hd : DhtInv d) (hl : LacrosseInv l) :
    ({ c0 with ring1 := r, dht := d, lacrosse := l } : State).Inv where
  build := tc1_wf
  inverse := rfl
  rings := by
    intro ch
    cases ch
    · show RingInv 64 ⟨0, 0, [], 0⟩
      exact ⟨List.Pairwise.nil, fun _ he => absurd he List.not_mem_nil, .inr ⟨by decide, by decide, fun _ hj => absurd hj (Nat.not_lt_zero _)⟩⟩
    · exact hr
  dht := hd
  lacrosse := hl
  pairs := by intro src kind _; cases src <;> cases kind <;> rfl

theorem ring_empty : RingInv 4 ⟨0, 0, [], 0⟩ :=
  ⟨List.Pairwise.nil, fun _ he => absurd he List.not_mem_nil, .inr ⟨by decide, by decide, fun _ hj => absurd hj (Nat.not_lt_zero _)⟩⟩
theorem ring_full : RingInv 4 ⟨6, 0, [(0, 50), (1, 60), (2, 30), (3, 40)], 0⟩ :=
  ⟨by decide, by decide, .inl (by decide)⟩
theorem dht_empty : DhtInv ⟨[], 0⟩ :=
  ⟨List.Pairwise.nil, fun _ he => absurd he List.not_mem_nil, by decide, by intro i hi; exact absurd hi (by simp)⟩
theorem dht_full : DhtInv d1.dht := by
  refine ⟨by decide +kernel, by decide +kernel, by decide, ?_⟩
  show ∀ i, i < 43 → (Memory.read (frameOf vDht1) i).isSome
  decide +kernel
theorem lacrosse_zero : LacrosseInv ⟨0, false, 0⟩ := ⟨by decide, by decide, by decide⟩
theorem lacrosse_last : LacrosseInv ⟨42, false, 0x4D2291B3B6⟩ := ⟨by decide, by decide, by decide⟩
theorem c0_inv : c0.Inv := inv_of_parts ring_empty dht_empty lacrosse_zero
theorem s0_inv : s0.Inv := c0_inv.congr rfl rfl rfl rfl rfl rfl rfl

/-- A state whose radio ring holds six samples in four slots. -/
def full : State := { c0 with ring1 := ⟨6, 0, [(0, 50), (1, 60), (2, 30), (3, 40)], 0⟩ }
theorem full_inv : full.Inv := inv_of_parts ring_full dht_empty lacrosse_zero
/-- A state one pulse before the end of the frame of V-RAD-1. -/
def last : State := { c0 with lacrosse := ⟨42, false, 0x4D2291B3B6⟩ }
theorem last_inv : last.Inv := inv_of_parts ring_empty dht_empty lacrosse_last
theorem d1_inv : d1.Inv := inv_of_parts ring_empty dht_full lacrosse_zero

theorem witness_DecodedWordIsItsEncoding : decodeWord 0xA0011 = .ok (.push .radio 10) := by decide +kernel
theorem witness_RejectedWordsAreTheReserved : lawfulWord 0 ∧ ¬ lawfulWord 0x10 ∧ decodeWord 0x10 = .error .noMatchingRow :=
  ⟨⟨rfl, rfl, rfl, rfl⟩, fun h => absurd h.1 (by decide), by decide +kernel⟩
/-- A state with one command to come. -/
def withCommand (p : Port) (w : Command) (s : State) : State := { s with pending := [.command p w] }
theorem witness_StepRunsDecodedCommand : (withCommand .producer 0xA0011 s0).pending = .command .producer 0xA0011 :: [] ∧
    (withCommand .producer 0xA0011 s0).inReset = false ∧ decodeWord 0xA0011 = .ok (.push .radio 10) := by
  exact ⟨rfl, rfl, by decide +kernel⟩
theorem witness_RunPerformsInOrder :
    ∃ s : State, s.inReset = false ∧ s.pending = commandInputs [(.producer, .push .radio 10), (.consumer, .pop .radio)] ++ [.resetBegin] :=
  ⟨{ s0 with pending := commandInputs [(.producer, .push .radio 10), (.consumer, .pop .radio)] ++ [.resetBegin] }, rfl, rfl⟩
theorem witness_ResetInputsReinitialise :
    ({ s0 with pending := [.resetBegin] } : State).pending = .resetBegin :: [] ∧
    (({ s0 with pending := [.resetEnd], inReset := true } : State).pending = .resetEnd :: [] ∧
      ({ s0 with pending := [.resetEnd], inReset := true } : State).inReset = true) ∧
    (({ s0 with pending := [.resetEnd] } : State).pending = .resetEnd :: [] ∧ ({ s0 with pending := [.resetEnd] } : State).inReset = false) ∧
    (({ s0 with pending := [.command .consumer 0], inReset := true } : State).pending = .command .consumer 0 :: [] ∧
      ({ s0 with pending := [.command .consumer 0], inReset := true } : State).inReset = true) ∧ s0.pending = [] :=
  ⟨rfl, ⟨rfl, rfl⟩, ⟨rfl, rfl⟩, ⟨rfl, rfl⟩, rfl⟩
theorem witness_ResetBuildsInverseTable : (tc1.wf ∧ tc1.invMode = .trueInverse) ∧
    ({ tc1 with invMode := .referenceZero } : Params).wf ∧ ({ tc1 with invMode := .referenceZero } : Params).invMode = .referenceZero :=
  ⟨⟨tc1_wf, rfl⟩, tc1_wf, rfl⟩
theorem witness_ResetMeetsInvariant : tc1.wf := tc1_wf
theorem witness_StepKeepsInvariant : (withCommand .producer 0xA0011 s0).Inv ∧ ∃ t, step (withCommand .producer 0xA0011 s0) = .next t :=
  ⟨s0_inv.congr rfl rfl rfl rfl rfl rfl rfl, _, rfl⟩
theorem witness_OnlyUnwrittenReadBackStops :
    ((withCommand .consumer 0x3210F s0).Inv ∧ step (withCommand .consumer 0x3210F s0) = .fault (.unwrittenSlot .radio 3)) ∧
    ((withCommand .consumer 0x3F200F s0).Inv ∧ step (withCommand .consumer 0x3F200F s0) = .fault (.unwrittenSlot .dht 63)) ∧
    ((withCommand .consumer 0x2A220F s0).Inv ∧ step (withCommand .consumer 0x2A220F s0) = .fault (.unwrittenEntry 42)) ∧
    ((withCommand .consumer 0 { s0 with inReset := true }).Inv ∧
      step (withCommand .consumer 0 { s0 with inReset := true }) = .refused .commandDuringReset) :=
  ⟨⟨s0_inv.congr rfl rfl rfl rfl rfl rfl rfl, rfl⟩, ⟨s0_inv.congr rfl rfl rfl rfl rfl rfl rfl, rfl⟩,
    ⟨s0_inv.congr rfl rfl rfl rfl rfl rfl rfl, rfl⟩, s0_inv.congr rfl rfl rfl rfl rfl rfl rfl, rfl⟩
theorem witness_TablesNeverChange :
    ({ s0 with pending := [.resetEnd], inReset := true } : State).Inv ∧
    ∃ t, step { s0 with pending := [.resetEnd], inReset := true } = .next t :=
  ⟨s0_inv.congr rfl rfl rfl rfl rfl rfl rfl, _, rfl⟩
theorem witness_IllegalCommandsChangeNothing :
    ((withCommand .producer 0x10 s0).pending = .command .producer 0x10 :: [] ∧ (withCommand .producer 0x10 s0).inReset = false ∧
      decodeWord 0x10 = .error .noMatchingRow) ∧
    (acceptedOn c0.port (.push .radio 10) = false ∧ acceptedOn s0.port (.pop .radio) = false) ∧
    (selectElement c0.cfg 0x06 0 = none ∧ selectElement c0.cfg 0x00 1 = none ∧ selectElement c0.cfg 0x21 4 = none ∧
      selectElement c0.cfg 0x22 43 = none) :=
  ⟨⟨rfl, rfl, by decide +kernel⟩, ⟨rfl, rfl⟩, by decide +kernel⟩
theorem witness_PortsAcceptTheirCommands :
    (s0.port = .producer ∧ ∃ t, exec (.pop .radio) s0 = .next t) ∧ (c0.port = .consumer ∧ ∃ t, exec (.push .radio 10) c0 = .next t) ∧
    (c0.port = .consumer ∧ ∃ t, exec (.capture .dht 10) c0 = .next t) ∧ (s0.port = .producer ∧ ∃ t, exec (.push .dht 1) s0 = .next t) ∧
    (c0.port = .consumer ∧ (selectElement c0.cfg 0x31 0).isSome ∧ ∃ t, exec (.readState 0x31 0) c0 = .next t) :=
  ⟨⟨rfl, _, rfl⟩, ⟨rfl, _, rfl⟩, ⟨rfl, _, rfl⟩, ⟨rfl, _, rfl⟩, rfl, by decide +kernel, _, rfl⟩
theorem witness_PortsOwnTheirState :
    (s0.port = .producer ∧ ∃ t, exec (.push .radio 10) s0 = .next t) ∧ (full.port = .consumer ∧ ∃ t, exec (.pop .radio) full = .next t) :=
  ⟨⟨rfl, _, rfl⟩, rfl, _, rfl⟩
theorem witness_OneResponseAndNoneRead : ∃ t, exec (.radioPulse 1600) c0 = .next t := ⟨_, rfl⟩
theorem witness_StatusesAreTheTabled : acceptedOn c0.port .dhtDecode = true ∧ ∃ t, exec .dhtDecode c0 = .next t := ⟨rfl, _, rfl⟩
theorem witness_NopAnswersOkOnBothPorts : fieldOp 0x10 = 0 ∧ (0x10 : Command) ≠ 0 := by decide +kernel
theorem witness_PushStoresSample : s0.port = .producer := rfl
/-- The filter's bound: 399 is dropped, 400 and every duration of the wired channel is kept. -/
theorem witness_CaptureMeasuresFiltersStores : s0.port = .producer ∧
    (399 - (s0.ring .radio).prev : Sample).toNat < 400 ∧ ¬ (400 - (s0.ring .radio).prev : Sample).toNat < 400 := by decide +kernel
theorem witness_PopTakesTheSlotOrAnswersEmpty :
    (c0.port = .consumer ∧ (c0.ring .radio).r = (c0.ring .radio).w) ∧
    (full.port = .consumer ∧ (full.ring .radio).r ≠ (full.ring .radio).w ∧
      Memory.read (full.ring .radio).slots (slotOf full.cfg .radio (full.ring .radio).r) = some 50) ∧
    (({ c0 with ring1 := ⟨1, 0, [], 0⟩ } : State).port = .consumer ∧ (⟨1, 0, [], 0⟩ : Machine.Ring).r ≠ (⟨1, 0, [], 0⟩ : Machine.Ring).w ∧
      Memory.read [] (slotOf c0.cfg .radio 0) = none) := by
  refine ⟨⟨rfl, rfl⟩, ⟨rfl, ?_, ?_⟩, rfl, ?_, rfl⟩ <;> decide +kernel
theorem witness_PopCompletesUnderInvariant : full.Inv ∧ full.port = .consumer := ⟨full_inv, rfl⟩
theorem witness_RingsAreIndependent : Channel.dht ≠ Channel.radio ∧ (∃ t, exec (.pop .radio) full = .next t) ∧
    (∃ t, exec (.push .radio 1) s0 = .next t) ∧ (∃ t, exec (.capture .radio 1) s0 = .next t) ∧
    ∃ f, exec (.pop .radio) { c0 with ring1 := ⟨1, 0, [], 0⟩ } = .fault f :=
  ⟨by decide, ⟨_, rfl⟩, ⟨_, rfl⟩, ⟨_, rfl⟩, _, rfl⟩
/-- With three of four slots unread there is room, and a queue of two has its first. -/
theorem witness_RingStepsAreQueueSteps :
    (({ s0 with ring1 := ⟨3, 0, [(0, 1), (1, 2), (2, 3)], 0⟩ } : State).port = .producer ∧ ((3 - 0 : Word)).toNat < capOf s0.cfg .radio ∧
      ∃ t, exec (.push .radio 4) { s0 with ring1 := ⟨3, 0, [(0, 1), (1, 2), (2, 3)], 0⟩ } = .next t) ∧
    (({ c0 with ring1 := ⟨2, 0, [(0, 1), (1, 2)], 0⟩ } : State).port = .consumer ∧
      unread c0.cfg .radio ⟨2, 0, [(0, 1), (1, 2)], 0⟩ = some 1 :: [some 2]) :=
  ⟨⟨rfl, by decide +kernel, _, rfl⟩, rfl, by decide +kernel⟩
/-- A ring of four slots filled, drained and asked once more. -/
theorem witness_RingIsFifoWhileDrained : (s0.ring .radio).r = (s0.ring .radio).w ∧
    drainedInTime (capOf s0.cfg .radio) 0 [.push 1, .push 2, .push 3, .push 4, .pop, .pop, .pop, .pop, .pop] :=
  ⟨rfl, by decide, by decide, by decide, by decide, by decide, trivial⟩
/-- P2: six samples in four slots, and index 1 shares its slot with index 5. -/
theorem witness_OverflowPopsLatestOfSlot : (s0.ring .radio).r = (s0.ring .radio).w ∧ ([10, 20, 30, 40, 50, 60] : List Sample).length < 2 ^ 32 ∧
    1 < ([10, 20, 30, 40, 50, 60] : List Sample).length ∧ latestIndex 6 (capOf s0.cfg .radio) 1 = 5 := by decide +kernel
/-- Also of ChecksumAndVerifyAnswer, SubstCommandsAnswerTheTables, Subst24CommandsReorderAndSubstitute, FrameEncodeAnswersWordAndChecksum and
ReadStateAnswersScalars' port. -/
theorem witness_CrcRawChainsTheTable : c0.port = .consumer := rfl
theorem witness_CrcRawIsThePolynomialRemainder : c0.port = .consumer ∧ c0.cfg.crcTable = crcTable0x31 := ⟨rfl, rfl⟩
theorem witness_ChecksumAndVerifyAnswer : c0.port = .consumer := rfl
theorem witness_SubstCommandsAnswerTheTables : c0.port = .consumer := rfl
theorem witness_Subst24CommandsReorderAndSubstitute : c0.port = .consumer := rfl
theorem witness_SubstitutionIsUndone : c0.Inv ∧ c0.cfg.invMode = .trueInverse ∧ c0.port = .consumer := ⟨c0_inv, rfl, rfl⟩
/-- The reset state of the build with REFERENCE_ZERO. -/
def z0 : State := { State.resetWith { tc1 with invMode := .referenceZero } with port := .consumer }
theorem witness_ReferenceZeroDecodesToZero : z0.Inv ∧ z0.cfg.invMode = .referenceZero ∧ z0.port = .consumer :=
  ⟨⟨tc1_wf, rfl, c0_inv.rings, dht_empty, lacrosse_zero, c0_inv.pairs⟩, rfl, rfl⟩
theorem witness_DhtFeedAppendsAndCounts : c0.port = .consumer ∧ ({ c0 with dht := ⟨[], 42⟩ } : State).dht.fn < 43 ∧
    ¬ ({ c0 with dht := ⟨[], 43⟩ } : State).dht.fn < 43 := ⟨rfl, by decide, by decide⟩
theorem witness_DhtClearAndLengthCheck : c0.port = .consumer ∧ ({ c0 with dht := ⟨[], 42⟩ } : State).dht.fn ≠ 43 ∧
    ({ c0 with dht := ⟨[], 44⟩ } : State).dht.fn ≠ 43 := ⟨rfl, by decide, by decide⟩

/-- A field carries the bits where each entry classifies as its bit. -/
theorem carriesBits_of {fb : Memory} {first n : Nat} {v : BitVec n}
    (h : ∀ i, i < n → (Memory.read fb (first + i)).bind classify = some (v.getMsbD i)) : CarriesBits fb first v :=
  fun i hi => Option.bind_eq_some_iff.mp (h i hi)
theorem holdsInvalid_of {fb : Memory} {first n i : Nat} {d : Sample} (h : ∀ i, i < n → (Memory.read fb (first + i)).isSome) (hi : i < n)
    (hd : Memory.read fb (first + i) = some d) (hc : classify d = none) : HoldsInvalid fb first n := ⟨h, i, d, hi, hd, hc⟩
theorem carries_hum : CarriesBits d1.dht.fb 3 (0x28C : BitVec 16) := carriesBits_of (by decide +kernel)
theorem carries_temp : CarriesBits d1.dht.fb 19 (0x69 : BitVec 16) := carriesBits_of (by decide +kernel)
theorem carries_sum : CarriesBits d1.dht.fb 35 (0xF7 : BitVec 8) := carriesBits_of (by decide +kernel)
theorem witness_DhtDecodeReadsTheFrame : d1.port = .consumer ∧ d1.dht.fn = 43 ∧ CarriesBits d1.dht.fb 3 (0x28C : BitVec 16) ∧
    CarriesBits d1.dht.fb 19 (0x69 : BitVec 16) ∧ CarriesBits d1.dht.fb 35 (0xF7 : BitVec 8) := ⟨rfl, rfl, carries_hum, carries_temp, carries_sum⟩
/-- The last entry of each field at a bound of a window (V-DHT-12, and 110 and 140 at entries 34 and 42). -/
theorem witness_DhtFirstFailingFieldDecides :
    HoldsInvalid (frameOf (vDht1.set 18 70)) 3 16 ∧
    (CarriesBits (frameOf (vDht1.set 34 110)) 3 (0x28C : BitVec 16) ∧ HoldsInvalid (frameOf (vDht1.set 34 110)) 19 16) ∧
    (CarriesBits (frameOf (vDht1.set 42 140)) 3 (0x28C : BitVec 16) ∧ CarriesBits (frameOf (vDht1.set 42 140)) 19 (0x69 : BitVec 16) ∧
      HoldsInvalid (frameOf (vDht1.set 42 140)) 35 8) ∧
    ∀ fb, ({ d1 with dht := ⟨fb, 43⟩ } : State).port = .consumer ∧ ({ d1 with dht := ⟨fb, 43⟩ } : State).dht.fn = 43 ∧
      ({ d1 with dht := ⟨fb, 43⟩ } : State).dht.fb = fb := by
  refine ⟨holdsInvalid_of (i := 15) (d := 70) ?_ ?_ ?_ ?_, ⟨carriesBits_of ?_, holdsInvalid_of (i := 15) (d := 110) ?_ ?_ ?_ ?_⟩,
    ⟨carriesBits_of ?_, carriesBits_of ?_, holdsInvalid_of (i := 7) (d := 140) ?_ ?_ ?_ ?_⟩, fun _ => ⟨rfl, rfl, rfl⟩⟩ <;> decide +kernel
theorem witness_DhtDecodeCompletesUnderInvariant : d1.Inv ∧ d1.port = .consumer := ⟨d1_inv, rfl⟩
theorem witness_RadioPreambleCountsLongSync : (c0.port = .consumer ∧ c0.lacrosse.rs ≤ 2) ∧
    ({ c0 with lacrosse := ⟨2, false, 0⟩ } : State).lacrosse.rs ≤ 2 := ⟨⟨rfl, by decide⟩, by decide⟩
theorem witness_RadioFirstBitSeeds : ({ c0 with lacrosse := ⟨3, false, 0⟩ } : State).port = .consumer ∧
    ({ c0 with lacrosse := ⟨3, false, 0⟩ } : State).lacrosse.rs = 3 := ⟨rfl, rfl⟩
theorem witness_RadioBodyDecodesByPreviousBit :
    (({ c0 with lacrosse := ⟨4, true, 1⟩ } : State).port = .consumer ∧ 4 ≤ (⟨4, true, 1⟩ : Lacrosse).rs ∧ (⟨4, true, 1⟩ : Lacrosse).rs ≤ 41) ∧
    (4 ≤ (⟨41, false, 0x269148D9DA⟩ : Lacrosse).rs ∧ (⟨41, false, 0x269148D9DA⟩ : Lacrosse).rs ≤ 41) :=
  ⟨⟨rfl, by decide, by decide⟩, by decide, by decide⟩
theorem witness_RadioLastBitCompletesFrame : last.port = .consumer ∧ last.lacrosse.rs = 42 := ⟨rfl, rfl⟩
/-- V-RAD-1: the spec's own durations carry the frame. -/
def vRad1 : List Sample :=
  [1600, 1600, 1600, 1300, 500, 700, 900, 700, 500, 900, 500, 700, 900, 500, 700] ++
  [700, 900, 500, 900, 500, 700, 900, 500, 700, 700, 900, 700, 500, 900, 700] ++
  [500, 700, 900, 700, 700, 500, 900, 700, 500, 900, 700, 500, 900]
theorem witness_RadioFrameIsDecoded : c0.lacrosse.rs = 0 ∧ CarriesFrame 0x9A4523676D vRad1 :=
  ⟨rfl, by decide, by decide, by decide, by decide +kernel⟩
/-- The canonical pulses of R223 are those the spec gives for this frame. -/
theorem witness_CanonicalPulsesCarryTheFrame : (0x9A4523676D : Frame).getLsbD 39 = true ∧ canonicalPulses 0x9A4523676D = vRad1 := by
  decide +kernel
theorem witness_EncodedFrameIsDecoded : c0.lacrosse.rs = 0 ∧ (0x80 : Byte).getLsbD 7 = true := by decide +kernel
theorem witness_NoFrameWithinFortyTwoPulses : c0.lacrosse.rs = 0 ∧ (vRad1.take 42).length ≤ 42 := by decide +kernel
theorem witness_ReturnedPayloadHasTopBit : last.Inv ∧ last.port = .consumer ∧
    ∃ t, exec (.radioPulse 900) last = .next t ∧ t.responses = (.consumer, ⟨.ok, 0x9A452367, 0⟩) :: last.responses := by
  refine ⟨last_inv, rfl, _, rfl, ?_⟩
  decide +kernel
theorem witness_FrameEncodeAnswersWordAndChecksum : c0.port = .consumer := rfl
theorem witness_RouteCorrectsAndForwardsOnChange : c0.port = .consumer ∧
    ((c0.router.pair .radio .hum).has = false) ∧
    (({ c0 with router := c0.router.setPair .radio .hum ⟨520, true⟩ } : State).router.pair .radio .hum).has = true ∧
    (52 * 10 : Word) = (({ c0 with router := c0.router.setPair .radio .hum ⟨520, true⟩ } : State).router.pair .radio .hum).last :=
  ⟨rfl, rfl, rfl, rfl⟩
theorem witness_RoutedPairsAreIndependent : ¬ (Source.wired = Source.radio ∧ Kind.temp = Kind.temp) ∧
    ∃ t, exec (.route .radio .temp 400) c0 = .next t := ⟨by decide, _, rfl⟩
theorem witness_RepeatedReadingIsForwardedOnce : corrected .radio .hum 52 = corrected .radio .hum 52 ∧
    corrected .radio .hum 53 ≠ corrected .radio .hum 52 := by decide +kernel
theorem witness_ReadStateAnswersScalars : c0.port = .consumer ∧ ((0x31 : Byte), BitVec.ofNat 32 (2 ^ c0.cfg.kRadio.val)) = (0x31, 4) := ⟨rfl, rfl⟩
/-- Index 3 of four slots written and not, index 4; index 63 and 64 of the wired ring; entries 42 and 43. -/
theorem witness_ReadStateAnswersEntries :
    (full.port = .consumer ∧ (3 : Sample).toNat < 2 ^ full.cfg.kRadio.val ∧ Memory.read full.ring1.slots (3 : Sample).toNat = some 40) ∧
    ((3 : Sample).toNat < 2 ^ c0.cfg.kRadio.val ∧ Memory.read c0.ring1.slots (3 : Sample).toNat = none ∧ 2 ^ c0.cfg.kRadio.val ≤ (4 : Sample).toNat) ∧
    ((63 : Sample).toNat < 2 ^ c0.cfg.kDht.val ∧ Memory.read c0.ring0.slots (63 : Sample).toNat = none ∧ 2 ^ c0.cfg.kDht.val ≤ (64 : Sample).toNat) ∧
    ((42 : Sample).toNat < 43 ∧ Memory.read d1.dht.fb (42 : Sample).toNat = some 125 ∧ Memory.read c0.dht.fb (42 : Sample).toNat = none ∧
      43 ≤ (43 : Sample).toNat) := by decide +kernel
theorem witness_IllFormedReadStateIsIllegal : (Instr.readState 0x06 0).wellFormed = false ∧ (Instr.readState 0x17 1).wellFormed = false ∧
    (Instr.readState 0x22 43).wellFormed = false := by decide +kernel
theorem witness_ReadStateHasNoSideEffect : ∃ t, exec (.readState 0x30 0) c0 = .next t := ⟨_, rfl⟩

end Sys2Proof.Tests.Slice0
end

section
/-! PROOFS. Scope: one step runs one command (00_scope.md R11, 20_memory.md R60, 30_encoding.md R97). -/
namespace Sys2Proof.Machine

/-- R97: a word that a row matches runs as its command. -/
theorem runWord_of_decodeWord_ok {w : Command} {i : Instr} (hi : decodeWord w = .ok i) (s : State) :
    runWord w s = exec i s := by
  simp only [runWord, hi]

/-- R11, R60: outside reset the command first in the order is presented on its port and its word is run whole. -/
theorem step_of_pending_command {s : State} {p : Port} {w : Command} {rest : List Input}
    (hp : s.pending = .command p w :: rest) (hr : s.inReset = false) :
    step s = runWord w (s.present p rest) := by
  simp [step, hp, hr]

/-- Settles O6: the step presents the command on its port, and the word runs as the command it decodes to. -/
theorem stepRunsDecodedCommand : Obligations.StepRunsDecodedCommand := by
  intro s p w rest i hp hr hi
  calc step s = runWord w (s.present p rest) := step_of_pending_command hp hr
    _ = exec i (s.present p rest) := runWord_of_decodeWord_ok hi _

end Sys2Proof.Machine
end

section
/-! PROOFS. The state: every step keeps the invariant (10_state.md R25, R26, R28, R30, 20_memory.md R62, R69). Each element has its own rule for
each update of it; an effect of a command is one of these updates, and a step is a command, an edge of reset or nothing. -/
namespace Sys2Proof.Machine

/-! ### Rings -/

/-- R20, R21: below the top an index goes on by one without wrapping. -/
theorem index_succ_toNat {n : Word} (h : n.toNat + 1 < 2 ^ 32) : (n + 1).toNat = n.toNat + 1 := BitVec.toNat_add_of_lt (y := 1) h

/-- R62: a stored sample is published with its index. Once the index has gone round the whole ring has been written. -/
theorem RingInv.store {cfg : Params} {ch : Channel} {q : Ring} (h : RingInv (capOf cfg ch) q) (d : Sample) :
    RingInv (capOf cfg ch) { q with slots := Memory.write q.slots (slotOf cfg ch q.w) d, w := q.w + 1 } where
  canonical := Memory.write_wf h.canonical _ d
  inside := Memory.write_below h.inside (slotOf_lt cfg ch q.w) d
  published := by
    rcases h.published with hall | ⟨hw, hr, hbelow⟩
    · exact .inl fun j hj => Memory.isSome_write (hall j hj) _ d
    · have hcap := capOf_le cfg ch
      have hslot : slotOf cfg ch q.w = q.w.toNat := by rw [slotOf_eq_mod, Nat.mod_eq_of_lt hw]
      have hw' : (q.w + 1).toNat = q.w.toNat + 1 := index_succ_toNat (by omega)
      have hwritten : ∀ j, j < q.w.toNat + 1 → ((Memory.write q.slots (slotOf cfg ch q.w) d).read j).isSome := by
        intro j hj
        rcases Nat.lt_succ_iff_lt_or_eq.mp hj with hlt | rfl
        · exact Memory.isSome_write (hbelow j hlt) _ d
        · simp [hslot]
      by_cases hfull : q.w.toNat + 1 < capOf cfg ch
      · exact .inr ⟨hw'.symm ▸ hfull, hw'.symm ▸ Nat.le_succ_of_le hr, hw'.symm ▸ hwritten⟩
      · exact .inl fun j hj => hwritten j (by omega)

/-- R62: the read index moves only where it is not at the write index, so it does not pass it. -/
theorem RingInv.advance {cap : Nat} {q : Ring} (h : RingInv cap q) (hne : q.r ≠ q.w) : RingInv cap { q with r := q.r + 1 } where
  canonical := h.canonical
  inside := h.inside
  published := h.published.imp_right fun ⟨hw, hr, hbelow⟩ => by
    have hlt : q.r.toNat < q.w.toNat := lt_of_le_of_ne hr fun he => hne (BitVec.eq_of_toNat_eq he)
    have hr' : (q.r + 1).toNat = q.r.toNat + 1 := index_succ_toNat (by omega)
    exact ⟨hw, hr'.symm ▸ hlt, hbelow⟩

/-- The snapshot is no part of a ring's soundness. -/
theorem RingInv.snapshot {cap : Nat} {q : Ring} (h : RingInv cap q) (raw : Sample) : RingInv cap { q with prev := raw } :=
  ⟨h.canonical, h.inside, h.published⟩

/-! ### The DHT22 decoder -/

/-- R25: an entry fed while there is room is the one the count comes to speak of; the count stops at 44. -/
theorem DhtInv.feed {t : Dht} (h : DhtInv t) (d : Sample) : DhtInv ⟨feedEntry t d, nextCount t.fn⟩ := by
  have hcount : nextCount t.fn ≤ 44 := Nat.min_le_right _ _
  by_cases hroom : t.fn < frameLength
  · rw [feedEntry, if_pos hroom]
    refine ⟨Memory.write_wf h.canonical _ d, Memory.write_below h.inside hroom d, hcount, fun i hi => ?_⟩
    by_cases hlast : i = t.fn
    · simp [hlast]
    · refine Memory.isSome_write (h.fed i ?_) _ d
      simp only [nextCount] at hi
      omega
  · rw [feedEntry, if_neg hroom]
    exact ⟨h.canonical, h.inside, hcount, fun i hi => h.fed i (by omega)⟩

/-- R25: a cleared count speaks of no entry. -/
theorem DhtInv.clear {t : Dht} (h : DhtInv t) : DhtInv ⟨t.fb, 0⟩ :=
  ⟨h.canonical, h.inside, Nat.zero_le _, fun i hi => absurd hi (by simp)⟩

/-! ### The LaCrosse decoder -/

/-- R54: a bit shifted in doubles the accumulator and adds the bit, where the top bit was free. -/
theorem shiftIn_toNat {n : Nat} {acc : BitVec n} (h : 2 * acc.toNat + 1 < 2 ^ n) (b : Bool) :
    (shiftIn acc b).toNat = 2 * acc.toNat + b.toNat := by
  have hb := b.toNat_lt
  have hshift : acc.toNat <<< 1 = 2 * acc.toNat := by rw [Nat.shiftLeft_eq]; omega
  rw [shiftIn, BitVec.toNat_or, BitVec.toNat_shiftLeft, BitVec.toNat_setWidth, BitVec.toNat_ofBool,
    Nat.mod_eq_of_lt (by omega), Nat.mod_eq_of_lt (by omega), ← Nat.shiftLeft_add_eq_or_of_lt (by omega), hshift]

/-- R54: the bit shifted in is bit 0 of the accumulator. -/
theorem shiftIn_getLsbD_zero {n : Nat} (hn : 0 < n) (acc : BitVec n) (b : Bool) : (shiftIn acc b).getLsbD 0 = b := by
  simp [shiftIn, hn]

/-- Before the body nothing is asked of the accumulator (R26, R28). -/
theorem LacrosseInv.of_preamble {l : Lacrosse} (h : l.rs < 4) : LacrosseInv l :=
  ⟨by omega, fun h4 => absurd h4 (by omega), fun h4 => absurd h4 (by omega)⟩

/-- R212: the first bit seeds the accumulator with a 1. -/
theorem LacrosseInv.seed : LacrosseInv ⟨4, true, 1⟩ := ⟨by decide, by decide, by decide⟩

/-- R215, R217: a body bit goes below the bits before it, and the leading 1 goes up one place. -/
theorem LacrosseInv.shift {l : Lacrosse} (h : LacrosseInv l) (h4 : 4 ≤ l.rs) (h43 : l.rs + 1 ≠ 43) (nb : Bool) :
    LacrosseInv ⟨l.rs + 1, nb, shiftIn l.rreg nb⟩ := by
  have hrange := h.range
  refine ⟨by simp only; omega, fun _ => ?_, fun _ => (shiftIn_getLsbD_zero (by decide) _ _).symm⟩
  have hb := nb.toNat_lt
  have hpos : 0 < 2 ^ (l.rs - 4) := Nat.two_pow_pos _
  have htop : 2 ^ (l.rs - 4) ≤ 2 ^ 37 := Nat.pow_le_pow_right (by decide) (by omega)
  have hlt : l.rreg.toNat < 2 * 2 ^ (l.rs - 4) :=
    (Nat.div_lt_iff_lt_mul hpos).mp (h.seeded h4 ▸ Nat.one_lt_two)
  calc (shiftIn l.rreg nb).toNat / 2 ^ (l.rs + 1 - 4)
      = (2 * l.rreg.toNat + nb.toNat) / (2 * 2 ^ (l.rs - 4)) := by
        rw [shiftIn_toNat (by omega), Nat.sub_add_comm h4, Nat.pow_succ']
    _ = l.rreg.toNat / 2 ^ (l.rs - 4) := by rw [← Nat.div_div_eq_div_mul]; congr 1; omega
    _ = 1 := h.seeded h4

/-- R26, C5: every branch of RADIO_PULSE leaves the decoder sound; `RS` goes back to 0 where it would be 43. -/
theorem PulseStep.keeps_inv {l l' : Lacrosse} (h : PulseStep l l') (hl : LacrosseInv l) : LacrosseInv l' := by
  cases h with
  | sync h => exact .of_preamble (Nat.succ_lt_succ h)
  | lost _ => exact .of_preamble (Nat.zero_lt_succ 3)
  | seed _ => exact .seed
  | miss _ => exact .of_preamble (Nat.zero_lt_succ 3)
  | shift h4 h43 nb => exact hl.shift h4 h43 nb
  | complete _ _ => exact .of_preamble (Nat.zero_lt_succ 3)

/-! ### The whole state -/

/-! One rule per update of the state: the update keeps the invariant where what it puts in is sound. The ports' side is free. -/
namespace State.Inv

variable {s : State}

theorem respond (h : s.Inv) (st : Status) (a b : Word) : (s.respond st a b).Inv := h.congr rfl rfl rfl rfl rfl rfl rfl
theorem take (h : s.Inv) (rest : List Input) : (s.take rest).Inv := h.congr rfl rfl rfl rfl rfl rfl rfl
theorem present (h : s.Inv) (p : Port) (rest : List Input) : (s.present p rest).Inv := h.congr rfl rfl rfl rfl rfl rfl rfl
theorem beginReset (h : s.Inv) : (beginReset s).Inv := h.congr rfl rfl rfl rfl rfl rfl rfl

theorem setRing (h : s.Inv) {ch : Channel} {q : Ring} (hq : RingInv (capOf s.cfg ch) q) : (s.setRing ch q).Inv := by
  refine ⟨by simpa using h.build, by simpa using h.inverse, fun c => ?_, by simpa using h.dht, by simpa using h.lacrosse,
    by simpa using h.pairs⟩
  by_cases hc : c = ch
  · subst hc; simpa using hq
  · simpa [setRing_ring_other s hc] using h.rings c

theorem storeSample (h : s.Inv) (ch : Channel) (d : Sample) : (storeSample ch d s).Inv := h.setRing ((h.rings ch).store d)
theorem advanceRead (h : s.Inv) {ch : Channel} (hne : (s.ring ch).r ≠ (s.ring ch).w) : (advanceRead ch s).Inv :=
  h.setRing ((h.rings ch).advance hne)
theorem setPrev (h : s.Inv) (ch : Channel) (raw : Sample) : (setPrev ch raw s).Inv := h.setRing ((h.rings ch).snapshot raw)

theorem setDht (h : s.Inv) {t : Dht} (ht : DhtInv t) : (s.setDht t).Inv :=
  ⟨h.build, h.inverse, by simpa using h.rings, ht, h.lacrosse, h.pairs⟩
theorem setLacrosse (h : s.Inv) {l : Lacrosse} (hl : LacrosseInv l) : (s.setLacrosse l).Inv :=
  ⟨h.build, h.inverse, by simpa using h.rings, h.dht, hl, h.pairs⟩

/-- R30: a pair that has been forwarded may hold any value; the others are as they were. -/
theorem remember (h : s.Inv) (src : Source) (kind : Kind) (v : Word) :
    (s.setRouter (s.router.setPair src kind ⟨v, true⟩)).Inv := by
  refine ⟨h.build, h.inverse, by simpa using h.rings, h.dht, h.lacrosse, fun a b hhas => ?_⟩
  rw [setRouter_router] at hhas ⊢
  by_cases hp : a = src ∧ b = kind
  · obtain ⟨rfl, rfl⟩ := hp
    simp at hhas
  · rw [Router.setPair_other _ hp] at hhas ⊢
    exact h.pairs a b hhas

/-- R340: the state after reset of a build R343 allows is sound: nothing written and nothing counted. -/
theorem resetWith {cfg : Params} (h : cfg.wf) : (State.resetWith cfg).Inv where
  build := h
  inverse := rfl
  rings ch := by
    have hempty : RingInv (capOf cfg ch) ⟨0, 0, [], 0⟩ :=
      ⟨.nil, by simp [Memory.below], .inr ⟨capOf_pos cfg ch, le_rfl, fun j hj => absurd hj (by simp)⟩⟩
    cases ch <;> exact hempty
  dht := ⟨.nil, by simp [Memory.below, State.resetWith], Nat.zero_le _, fun i hi => absurd hi (by simp [State.resetWith])⟩
  lacrosse := .of_preamble (Nat.zero_lt_succ 3)
  pairs src kind _ := by cases src <;> cases kind <;> rfl

theorem endReset (h : s.Inv) : (endReset s).Inv := by
  cases hr : s.inReset with
  | true => rw [endReset_inReset s hr]; exact (resetWith h.build).congr rfl rfl rfl rfl rfl rfl rfl
  | false => rw [endReset_idle s hr]; exact h

end State.Inv

/-! ### Commands and steps -/

/-- Nothing a command does to the core breaks the invariant. -/
theorem Effect.keeps_inv {s u : State} {p : Port} (h : Effect s p u) (hs : s.Inv) : u.Inv := by
  cases h with
  | unchanged => exact hs
  | stored ch d => exact hs.storeSample ch d
  | snapshot ch raw => exact hs.setPrev ch raw
  | captured ch d raw => exact (hs.setPrev ch raw).storeSample ch d
  | popped _ hne => exact hs.advanceRead hne
  | fed d => exact hs.setDht (hs.dht.feed d)
  | cleared => exact hs.setDht hs.dht.clear
  | pulsed _ hl => exact hs.setLacrosse (hl.keeps_inv hs.lacrosse)
  | remembered src kind v => exact hs.remember src kind v

/-- Every command keeps the invariant, on either port. -/
theorem exec_keeps_inv {i : Instr} {s t : State} (hs : s.Inv) (h : exec i s = .next t) : t.Inv := by
  obtain ⟨u, st, a, b, hu, rfl⟩ := exec_effect h
  exact (hu.keeps_inv hs).respond st a b

/-- Settles O12: a step is idle, an edge of reset, an ILLEGAL answer or a command, and each of them keeps the invariant. -/
theorem stepKeepsInvariant : Obligations.StepKeepsInvariant := by
  intro s t hs h
  rcases step_cases h with ⟨_, rfl⟩ | ⟨rest, _, rfl⟩ | ⟨rest, _, rfl⟩ | ⟨p, w, rest, _, _, ⟨_, rfl⟩ | ⟨i, _, he⟩⟩
  · exact hs
  · exact (hs.take rest).beginReset
  · exact (hs.take rest).endReset
  · exact (hs.present p rest).respond _ _ _
  · exact exec_keeps_inv (hs.present p rest) he

end Sys2Proof.Machine
end

section
/-! PROOFS. The state: the constants and `INV` are written by no step (10_state.md R31, R32, 20_memory.md R69). -/
namespace Sys2Proof.Machine

/-- R31, R32: no command writes the constants or `INV`. -/
theorem exec_tables {i : Instr} {s t : State} (h : exec i s = .next t) : t.cfg = s.cfg ∧ t.inv = s.inv := by
  obtain ⟨u, st, a, b, hu, rfl⟩ := exec_effect h
  obtain ⟨hcfg, hinv, _⟩ := hu.fixed
  exact ⟨hcfg, hinv⟩

/-- R69, R341: a reset keeps the constants and builds from them the `INV` that stood before, where that one was built from them too. -/
theorem endReset_tables {s : State} (h : s.inv = inverseTable s.cfg.invMode s.cfg.subst) :
    (endReset s).cfg = s.cfg ∧ (endReset s).inv = s.inv := by
  cases hr : s.inReset with
  | true => rw [endReset_inReset s hr]; exact ⟨rfl, h.symm⟩
  | false => rw [endReset_idle s hr]; exact ⟨rfl, rfl⟩

/-- Settles O14: only the end of a reset writes `INV`, and under the invariant it writes the same table. -/
theorem tablesNeverChange : Obligations.TablesNeverChange := by
  intro s t hs h
  rcases step_cases h with ⟨_, rfl⟩ | ⟨rest, _, rfl⟩ | ⟨rest, _, rfl⟩ | ⟨p, w, rest, _, _, ⟨_, rfl⟩ | ⟨i, _, he⟩⟩
  · exact ⟨rfl, rfl⟩
  · exact ⟨rfl, rfl⟩
  · exact endReset_tables (hs.take rest).inverse
  · exact ⟨rfl, rfl⟩
  · simpa using exec_tables he

end Sys2Proof.Machine
end

section
/-! PROOFS. The decoder: a word that a row of the opcode map accepts decodes by that row, so every command comes back from its word
(30_encoding.md R84, R97). -/
namespace Sys2Proof

/-- R84, R97: two rows whose patterns disagree on the bits that both masks fix accept no word in common. -/
theorem Row.not_both_accept {a b : Row} (h : a.pattern &&& b.mask ≠ b.pattern &&& a.mask) (w : Command) :
    ¬ (a.accepts w = true ∧ b.accepts w = true) := by
  rintro ⟨ha, hb⟩
  rw [Row.accepts, beq_iff_eq] at ha hb
  apply h
  calc a.pattern &&& b.mask = w &&& a.mask &&& b.mask := by rw [ha]
    _ = w &&& b.mask &&& a.mask := by rw [BitVec.and_assoc, BitVec.and_comm a.mask, BitVec.and_assoc]
    _ = b.pattern &&& a.mask := by rw [hb]

/-- R84: every two rows of the map disagree on some bit that both fix. -/
theorem opcodeMap_patterns_disagree : opcodeMap.Pairwise fun a b => a.pattern &&& b.mask ≠ b.pattern &&& a.mask := by
  decide

/-- R97: a row that accepts a word is the only one, so the row search finds it. -/
theorem decodeWord_of_accepts {r : Row} {w : Command} (hr : r ∈ opcodeMap) (hw : r.accepts w = true) :
    decodeWord w = .ok (r.build w) := by
  obtain ⟨r', hfind⟩ : ∃ r', opcodeMap.find? (fun r => r.accepts w) = some r' :=
    Option.isSome_iff_exists.mp (List.find?_isSome.mpr ⟨r, hr, hw⟩)
  have hr' : r' = r := by
    have hsymm : Std.Symm fun a b : Row => a.pattern &&& b.mask ≠ b.pattern &&& a.mask := ⟨fun _ _ h => h.symm⟩
    by_contra hne
    have hw' : r'.accepts w = true := List.find?_some (p := fun r : Row => r.accepts w) hfind
    exact Row.not_both_accept (opcodeMap_patterns_disagree.forall (List.mem_of_find?_eq_some hfind) hr hne) w ⟨hw', hw⟩
  rw [decodeWord, hfind, hr']

/-- The row of each constructor accepts its word and builds the command back. -/
theorem encodedRow_statement (i : Instr) : Laws.EncodedRow.Statement i := by
  cases i with
  | nop => exact Laws.EncodedRow.nop
  | push ch d => exact Laws.EncodedRow.push ch d
  | capture ch raw => exact Laws.EncodedRow.capture ch raw
  | pop ch => exact Laws.EncodedRow.pop ch
  | crcRaw p => exact Laws.EncodedRow.crcRaw p
  | checksum p => exact Laws.EncodedRow.checksum p
  | verify p c => exact Laws.EncodedRow.verify p c
  | substEnc b => exact Laws.EncodedRow.substEnc b
  | substDec b => exact Laws.EncodedRow.substDec b
  | subst24Enc v => exact Laws.EncodedRow.subst24Enc v
  | subst24Dec v => exact Laws.EncodedRow.subst24Dec v
  | dhtFeed d => exact Laws.EncodedRow.dhtFeed d
  | dhtClear => exact Laws.EncodedRow.dhtClear
  | dhtDecode => exact Laws.EncodedRow.dhtDecode
  | radioPulse d => exact Laws.EncodedRow.radioPulse d
  | frameEncode sync p => exact Laws.EncodedRow.frameEncode sync p
  | route src kind raw => exact Laws.EncodedRow.route src kind raw
  | readState sel8 idx => exact Laws.EncodedRow.readState sel8 idx

/-- R80, R97: the word of a command decodes to the command. -/
theorem decodeWord_encode (i : Instr) : decodeWord (encode i) = .ok i := by
  obtain ⟨r, hr, hacc, hbuild⟩ := encodedRow_statement i
  rw [decodeWord_of_accepts hr hacc, hbuild]

end Sys2Proof
end

section
/-! PROOFS. Memory: runs in the total order (20_memory.md R60, R61). No command reads the inputs to come, so executing it commutes with
replacing them; a run then performs the commands presented one by one. -/
namespace Sys2Proof.Machine

/-- One meaning after another: a stop stays the stop it is. -/
def andThen {σ φ ρ : Type} (r : Host.Outcome σ φ ρ) (k : σ → Host.Outcome σ φ ρ) : Host.Outcome σ φ ρ :=
  match r with
  | .next t => k t
  | .fault f => .fault f
  | .refused r => .refused r

/-- A change made to the next state. -/
def mapNext (f : State → State) (r : Result) : Result := andThen r fun t => .next (f t)

@[simp] theorem mapNext_next (f : State → State) (t : State) : mapNext f (.next t) = .next (f t) := rfl
@[simp] theorem mapNext_fault (f : State → State) (r : Fault) : mapNext f (.fault r) = .fault r := rfl

theorem andThen_mapNext (f : State → State) (r : Result) (k : State → Result) :
    andThen (mapNext f r) k = andThen r fun t => k (f t) := by
  cases r <;> rfl

/-- What comes after matters only at the next state there is. -/
theorem andThen_congr {r : Result} {k k' : State → Result} (h : ∀ t, r = .next t → k t = k' t) : andThen r k = andThen r k' := by
  cases r with
  | next t => exact h t rfl
  | fault f => rfl
  | refused r => rfl

theorem run_succ (M : Host.Core) (n : Nat) (s : M.State) : M.run (n + 1) s = andThen (M.step s) (M.run n) := by
  rw [Host.Core.run]
  cases M.step s <;> rfl

theorem perform_cons (p : Port) (i : Instr) (cs : List (Port × Instr)) (s : State) :
    perform ((p, i) :: cs) s = andThen (exec i { s with port := p }) (perform cs) := by
  rw [perform]
  cases exec i { s with port := p } <;> rfl

/-- A change passes an `if` where it passes both branches. -/
theorem ite_eq_map {α β : Type} {c : Prop} [Decidable c] (f : α → β) {a b : α} {a' b' : β} (ha : a' = f a) (hb : b' = f b) :
    (if c then a' else b') = f (if c then a else b) := by
  rw [ha, hb, apply_ite f]

/-- A change of the state passes the port check where it keeps the port and passes the ILLEGAL answer and the body. -/
theorem onPort_mapNext {p : Port} {s s' : State} {body body' : Result} {f : State → State} (hport : s'.port = s.port)
    (hillegal : s'.respond .illegal 0 0 = f (s.respond .illegal 0 0)) (hbody : body' = mapNext f body) :
    onPort p s' body' = mapNext f (onPort p s body) := by
  by_cases hp : s.port = p
  · rw [onPort_here hp, onPort_here (hport.trans hp), hbody]
  · rw [onPort_elsewhere hp, onPort_elsewhere (hport ▸ hp), raiseIllegal, raiseIllegal, hillegal, mapNext_next]

section
variable (s : State) (rest : List Input)

theorem elementValue_take (e : Element) : elementValue (s.take rest) e = elementValue s e := by cases e <;> rfl

theorem ringRead_take (ch : Channel) : ringRead ch (readSlot ch (s.take rest)) (s.take rest) = ringRead ch (readSlot ch s) s := by
  simp only [ringRead, readSlot, State.take_ring, State.take_cfg]

theorem execCapture_take (ch : Channel) (raw : Sample) :
    execCapture ch raw (s.take rest) = mapNext (State.take · rest) (execCapture ch raw s) := by
  refine onPort_mapNext rfl rfl (congrArg _ ?_)
  cases ch <;> exact ite_eq_map (State.take · rest) rfl rfl

theorem execPop_take (ch : Channel) : execPop ch (s.take rest) = mapNext (State.take · rest) (execPop ch s) := by
  refine onPort_mapNext rfl rfl (ite_eq_map _ rfl ?_)
  rw [ringRead_take]
  cases ringRead ch (readSlot ch s) s with
  | none => rfl
  | some d => cases ch <;> rfl

theorem finishFrame_take (h t : BitVec 16) (k : Byte) : finishFrame h t k (s.take rest) = (finishFrame h t k s).take rest :=
  ite_eq_map (State.take · rest) rfl rfl

theorem execDhtDecode_take : execDhtDecode (s.take rest) = mapNext (State.take · rest) (execDhtDecode s) := by
  refine onPort_mapNext rfl rfl (ite_eq_map _ rfl ?_)
  rw [State.take_dht]
  cases readField s.dht.fb 3 16 (0 : BitVec 16) with
  | unwritten | invalid => rfl
  | bits h =>
    cases readField s.dht.fb 19 16 (0 : BitVec 16) with
    | unwritten | invalid => rfl
    | bits t =>
      cases readField s.dht.fb 35 8 (0 : Byte) with
      | unwritten | invalid => rfl
      | bits k => exact congrArg _ (finishFrame_take (clearCount s) rest h t k)

theorem preamblePulse_take (d : Sample) : preamblePulse d (s.take rest) = (preamblePulse d s).take rest :=
  ite_eq_map (State.take · rest) rfl rfl

theorem firstBitPulse_take (d : Sample) : firstBitPulse d (s.take rest) = (firstBitPulse d s).take rest :=
  ite_eq_map (State.take · rest) rfl rfl

theorem completeFrame_take (reg : Frame) : completeFrame reg (s.take rest) = (completeFrame reg s).take rest :=
  ite_eq_map (State.take · rest) rfl rfl

theorem bodyPulse_take (nb : Bool) : bodyPulse nb (s.take rest) = (bodyPulse nb s).take rest :=
  ite_eq_map (State.take · rest) (completeFrame_take (s.setLacrosse _) rest _) rfl

theorem execRadioPulse_take (d : Sample) : execRadioPulse d (s.take rest) = mapNext (State.take · rest) (execRadioPulse d s) := by
  refine onPort_mapNext rfl rfl (congrArg _ ?_)
  refine ite_eq_map (State.take · rest) (preamblePulse_take s rest d) (ite_eq_map (State.take · rest) (firstBitPulse_take s rest d) ?_)
  rw [State.take_lacrosse]
  cases bodyBit s.lacrosse.rb d with
  | none => rfl
  | some nb => exact bodyPulse_take s rest nb

theorem execRoute_take (src : Source) (kind : Kind) (raw : Word) :
    execRoute src kind raw (s.take rest) = mapNext (State.take · rest) (execRoute src kind raw s) :=
  onPort_mapNext rfl rfl (congrArg _ (ite_eq_map (State.take · rest) rfl rfl))

theorem execReadState_take (sel8 : Byte) (idx : Sample) :
    execReadState sel8 idx (s.take rest) = mapNext (State.take · rest) (execReadState sel8 idx s) := by
  refine onPort_mapNext rfl rfl ?_
  simp only [State.take_cfg, elementValue_take]
  cases selectElement s.cfg sel8 idx with
  | none => rfl
  | some e => simp only; cases elementValue s e <;> rfl

/-- R60, log 1: no command reads or writes the inputs to come. -/
theorem exec_take (i : Instr) : exec i (s.take rest) = mapNext (State.take · rest) (exec i s) := by
  cases i with
  | nop => rfl
  | push ch d => exact onPort_mapNext rfl rfl (by cases ch <;> rfl)
  | capture ch raw => exact execCapture_take s rest ch raw
  | pop ch => exact execPop_take s rest ch
  | dhtDecode => exact execDhtDecode_take s rest
  | radioPulse d => exact execRadioPulse_take s rest d
  | route src kind raw => exact execRoute_take s rest src kind raw
  | readState sel8 idx => exact execReadState_take s rest sel8 idx
  | _ => exact onPort_mapNext rfl rfl rfl

end

/-- No command writes the ports' side but for its response. -/
theorem exec_keeps_input_side {i : Instr} {s t : State} (h : exec i s = .next t) :
    t.inReset = s.inReset ∧ t.pending = s.pending ∧ t.port = s.port := by
  obtain ⟨u, st, a, b, hu, rfl⟩ := exec_effect h
  obtain ⟨_, _, hreset, hpending, hport, _⟩ := hu.fixed
  exact ⟨hreset, hpending, hport⟩

/-- Settles O7, by induction on the commands: the first step runs the first command, whose word decodes to it, with the others still to
come; the first command performed alone does the same, since it does not read what is to come. -/
theorem runPerformsInOrder : Obligations.RunPerformsInOrder := by
  intro cs rest s hreset hpending
  induction cs generalizing s with
  | nil =>
    have hs : s.pending = rest := hpending
    subst hs
    rfl
  | cons c cs ih =>
    obtain ⟨p, i⟩ := c
    let u := s.present p (commandInputs cs ++ rest)
    have hstep : step s = exec i u := stepRunsDecodedCommand s p (encode i) _ i hpending hreset (decodeWord_encode i)
    have hrest : ∀ t, exec i u = .next t → (Host.Core.run core cs.length t : Result) = perform cs (t.take rest) := by
      intro t ht
      obtain ⟨htreset, htpending, _⟩ := exec_keeps_input_side ht
      exact ih t (htreset.trans hreset) htpending
    refine (run_succ core cs.length s).trans ?_
    calc andThen (step s) (Host.Core.run core cs.length)
        = andThen (exec i u) (Host.Core.run core cs.length) := by rw [hstep]
      _ = andThen (exec i u) fun t => perform cs (t.take rest) := andThen_congr hrest
      _ = andThen (exec i (u.take rest)) (perform cs) := by rw [exec_take, andThen_mapNext]
      _ = perform ((p, i) :: cs) { s with pending := rest } := (perform_cons p i cs { s with pending := rest }).symm

end Sys2Proof.Machine
end

section
/-! PROOFS. Memory: the two rings (20_memory.md R66). A command on one ring commutes with replacing the other; that it keeps the other is
then the case where the other is replaced by itself. -/
namespace Sys2Proof.Machine

theorem State.setRing_ring_self (s : State) (c : Channel) : s.setRing c (s.ring c) = s := by cases c <;> rfl

section
variable {ch c : Channel} (h : c ≠ ch) (s : State) (q : Ring)
include h

theorem storeSample_setRing (d : Sample) : storeSample ch d (s.setRing c q) = (storeSample ch d s).setRing c q := by
  simp only [storeSample, storeSlot, State.setRing_ring_other s h.symm, State.setRing_cfg, State.setRing_comm s h]

theorem setPrev_setRing (raw : Sample) : setPrev ch raw (s.setRing c q) = (setPrev ch raw s).setRing c q := by
  simp only [setPrev, State.setRing_ring_other s h.symm, State.setRing_comm s h]

theorem advanceRead_setRing : advanceRead ch (s.setRing c q) = (advanceRead ch s).setRing c q := by
  simp only [advanceRead, State.setRing_ring_other s h.symm, State.setRing_comm s h]

theorem execPush_setRing (d : Sample) : execPush ch d (s.setRing c q) = mapNext (State.setRing · c q) (execPush ch d s) :=
  onPort_mapNext (s.setRing_port c q) (s.setRing_respond c q _ _ _) (by
    rw [mapNext_next, storeSample_setRing h, State.setRing_respond])

theorem execCapture_setRing (raw : Sample) :
    execCapture ch raw (s.setRing c q) = mapNext (State.setRing · c q) (execCapture ch raw s) := by
  refine onPort_mapNext (s.setRing_port c q) (s.setRing_respond c q _ _ _) ?_
  simp only [captureDelta, State.setRing_ring_other s h.symm, setPrev_setRing h, storeSample_setRing h, State.setRing_respond]
  exact congrArg _ (ite_eq_map (State.setRing · c q) rfl rfl)

theorem execPop_setRing : execPop ch (s.setRing c q) = mapNext (State.setRing · c q) (execPop ch s) := by
  refine onPort_mapNext (s.setRing_port c q) (s.setRing_respond c q _ _ _) ?_
  simp only [readSlot, ringRead, State.setRing_ring_other s h.symm, State.setRing_cfg, advanceRead_setRing h, State.setRing_respond]
  refine ite_eq_map _ rfl ?_
  cases Memory.read (s.ring ch).slots (slotOf s.cfg ch (s.ring ch).r) <;> rfl

end

/-- Settles O25: each of the three ring commands does the same whatever the other ring holds, and so keeps it. -/
theorem ringsAreIndependent : Obligations.RingsAreIndependent := by
  intro ch c i s q hne hi
  have hcomm : ∀ q, exec i (s.setRing c q) = mapNext (State.setRing · c q) (exec i s) := by
    intro q
    rcases hi with ⟨d, rfl⟩ | ⟨raw, rfl⟩ | rfl
    · exact execPush_setRing hne s q d
    · exact execCapture_setRing hne s q raw
    · exact execPop_setRing hne s q
  refine ⟨fun t ht => ⟨?_, by rw [hcomm, ht, mapNext_next]⟩, fun f hf => by rw [hcomm, hf, mapNext_fault]⟩
  have hself : t = t.setRing c (s.ring c) := by simpa [State.setRing_ring_self, ht] using hcomm (s.ring c)
  rw [hself, State.setRing_ring_same]

end Sys2Proof.Machine
end

section
/-! PROOFS. Memory: a ring as a queue (20_memory.md R51, 42_ring_buffer.md R152, R160): what a store and an advance do to the unread
samples. -/
namespace Sys2Proof.Machine

variable {cfg : Params} {ch : Channel} {q : Ring}

/-- R51: of `CAP` indices in a row no two select the same slot. -/
theorem slotOf_add_ne {n : Word} {j k : Nat} (hjk : j < k) (hk : k < capOf cfg ch) :
    slotOf cfg ch (n + BitVec.ofNat 32 j) ≠ slotOf cfg ch (n + BitVec.ofNat 32 k) := by
  rw [slotOf_add, slotOf_add]
  intro heq
  have hmod : j ≡ k [MOD capOf cfg ch] := Nat.ModEq.add_left_cancel' n.toNat heq
  exact hjk.ne (hmod.eq_of_lt_of_lt (hjk.trans hk) hk)

/-- The write index is as far beyond the read index as there are unread samples (R63). -/
theorem read_add_unread_count (q : Ring) : q.r + BitVec.ofNat 32 (q.w - q.r).toNat = q.w := by
  rw [BitVec.ofNat_toNat, BitVec.setWidth_eq, add_sub_cancel]

/-- R160: a ring whose indices meet has nothing unread. -/
theorem unread_of_eq (h : q.r = q.w) : unread cfg ch q = [] := by
  simp [unread, h]

/-- R160: where the indices do not meet, the read index selects the oldest unread sample, and moving it on leaves the others. -/
theorem unread_eq_cons (hne : q.r ≠ q.w) :
    unread cfg ch q = Memory.read q.slots (slotOf cfg ch q.r) :: unread cfg ch { q with r := q.r + 1 } := by
  have hcount : (q.w - q.r).toNat = (q.w - (q.r + 1)).toNat + 1 := by bv_omega
  have hindex : ∀ k, q.r + BitVec.ofNat 32 (k + 1) = q.r + 1 + BitVec.ofNat 32 k := by
    intro k
    rw [BitVec.ofNat_add, BitVec.add_comm (BitVec.ofNat 32 k), ← BitVec.add_assoc]; rfl
  simp only [unread, hcount, List.range_succ_eq_map, List.map_cons, List.map_map, Function.comp_def, Nat.succ_eq_add_one, hindex]
  simp

/-- R152: a sample stored in a ring with room is the newest unread one, and the unread ones before it keep their slots. -/
theorem unread_store (hroom : (q.w - q.r).toNat < capOf cfg ch) (d : Sample) :
    unread cfg ch { q with slots := Memory.write q.slots (slotOf cfg ch q.w) d, w := q.w + 1 } = unread cfg ch q ++ [some d] := by
  have hcap := capOf_le cfg ch
  have hcount : (q.w + 1 - q.r).toNat = (q.w - q.r).toNat + 1 := by bv_omega
  have hkept : ∀ k ∈ List.range (q.w - q.r).toNat,
      Memory.read (Memory.write q.slots (slotOf cfg ch q.w) d) (slotOf cfg ch (q.r + BitVec.ofNat 32 k)) =
        Memory.read q.slots (slotOf cfg ch (q.r + BitVec.ofNat 32 k)) := by
    intro k hk
    refine Memory.read_write_other _ _ ?_
    have hne := slotOf_add_ne (cfg := cfg) (ch := ch) (n := q.r) (List.mem_range.mp hk) hroom
    rwa [read_add_unread_count] at hne
  simp only [unread, hcount, List.range_succ, List.map_append, List.map_cons, List.map_nil]
  rw [List.map_congr_left hkept, read_add_unread_count, Memory.read_write_same]

/-- Settles O26: PUSH is the store, POP reads the oldest unread sample and advances. -/
theorem ringStepsAreQueueSteps : Obligations.RingStepsAreQueueSteps := by
  intro ch s
  constructor
  · intro d t hp hroom ht
    rw [exec, execPush, onPort_here hp] at ht
    cases ht
    simpa [storeSample, storeSlot] using unread_store hroom d
  · intro d q hp hq
    have hne : (s.ring ch).r ≠ (s.ring ch).w := fun heq => by simp [unread_of_eq heq] at hq
    rw [unread_eq_cons hne] at hq
    obtain ⟨hread, hrest⟩ := List.cons.inj hq
    refine ⟨_, execPop_next hp hne hread, by simp [hp], ?_⟩
    simpa [advanceRead] using hrest

end Sys2Proof.Machine
end

section
/-! PROOFS. Memory: READ_STATE has no side effect (20_memory.md R57, 47_state_access.md R270). -/
namespace Sys2Proof.Machine

/-- R57, R99: where READ_STATE answers, on either port, it does nothing but respond. -/
theorem exec_readState_responds {sel8 : Byte} {idx : Sample} {s t : State} (h : exec (.readState sel8 idx) s = .next t) :
    ∃ st a, t = s.respond st a 0 := by
  cases hp : s.port with
  | producer =>
    rw [exec_wrongPort (by rw [hp]; rfl)] at h
    cases h
    exact ⟨_, _, rfl⟩
  | consumer =>
    rcases execReadState_cases sel8 idx hp with ⟨_, he⟩ | ⟨e, _, ⟨v, _, he⟩ | ⟨f, _, he⟩⟩ <;> rw [exec, he] at h <;> cases h
    · exact ⟨_, _, rfl⟩
    · exact ⟨_, _, rfl⟩

/-- Settles O58: a response changes only the record of the responses. -/
theorem readStateHasNoSideEffect : Obligations.ReadStateHasNoSideEffect := by
  intro sel8 idx s t h
  obtain ⟨st, a, rfl⟩ := exec_readState_responds h
  rfl

end Sys2Proof.Machine
end

section
/-! PROOFS. The decoder: the words some row of R84 accepts, the lawful words of R83 and the words of commands are the same words
(30_encoding.md R80, R83, R84, R97). -/
namespace Sys2Proof
open Sys2Proof.Machine

/-! ### What a row's mask asks of a field -/

/-- A field whose mask is all ones is fixed whole. -/
theorem and_ones {n : Nat} {m : BitVec n} (hm : m = BitVec.allOnes n) (v : BitVec n) : v &&& m = v := by
  rw [hm, BitVec.and_allOnes]

/-- `SEL` with only bit 0 free. -/
theorem sel_and_14_eq_zero (sel : BitVec 4) : sel &&& 14#4 = 0#4 ↔ sel.toNat ≤ 1 := by
  decide +revert

/-- `SEL` with bits 0 and 1 free. -/
theorem sel_and_12_eq_zero (sel : BitVec 4) : sel &&& 12#4 = 0#4 ↔ sel.toNat ≤ 3 := by
  decide +revert

/-- A 32-bit value whose byte 3 is 0 is a 24-bit value. -/
theorem setWidth_of_byteOf_eq_zero {v : Word} (h : byteOf v 3 = 0) : (v.extractLsb' 0 24).setWidth 32 = v := by
  have htop : v.toNat / 2 ^ 24 % 2 ^ 8 = 0 := by
    simpa [byteOf, BitVec.extractLsb'_toNat, Nat.shiftRight_eq_div_pow] using congrArg BitVec.toNat h
  apply BitVec.eq_of_toNat_eq
  simp only [BitVec.toNat_setWidth, BitVec.extractLsb'_toNat, Nat.shiftRight_eq_div_pow]
  omega

/-- `B32` with its low 24 bits free. -/
theorem and_topByte_eq_zero (v : Word) : v &&& 0xFF000000#32 = 0#32 ↔ byteOf v 3 = 0#8 := by
  constructor
  · intro h
    have hbyte : byteOf (v &&& 0xFF000000#32) 3 = byteOf v 3 &&& 0xFF#8 := by
      apply BitVec.eq_of_getLsbD_eq
      intro k hk
      interval_cases k <;> simp [byteOf]
    simpa [h, byteOf, and_ones] using hbyte.symm
  · intro h
    rw [← setWidth_of_byteOf_eq_zero h]
    exact Laws.EncodedRow.triple_fixed _

/-- R83, R84: a word that a row accepts has its reserved bits 0 and an assigned selector. -/
theorem lawfulWord_of_accepts {r : Row} (hr : r ∈ opcodeMap) {w : Command} (h : r.accepts w = true) : lawfulWord w := by
  rw [← packFields_fields w, Row.accepts_packFields] at h
  unfold lawfulWord
  generalize fieldOp w = op, fieldSel w = sel, fieldX8 w = x8, fieldA16 w = a16, fieldB32 w = b32 at *
  simp only [opcodeMap, List.cons_append, List.nil_append, List.mem_cons, List.not_mem_nil, or_false] at hr
  rcases hr with rfl | rfl | rfl | rfl | rfl | rfl | rfl | rfl | rfl | rfl | rfl | rfl | rfl | rfl | rfl | rfl | rfl | rfl
  all_goals
    simp only [fieldOp, fieldSel, fieldX8, fieldA16, fieldB32, BitVec.ofNat_eq_ofNat, BitVec.reduceExtractLsb', BitVec.reduceAllOnes,
      and_ones, sel_and_14_eq_zero, sel_and_12_eq_zero, and_topByte_eq_zero] at h
    obtain ⟨rfl, h⟩ := h
    simp [lawfulFields, h]

/-! ### Every lawful word is the word of a command -/

theorem sel_eq_zero_or_one {sel : BitVec 4} (h : sel.toNat ≤ 1) : sel = 0 ∨ sel = 1 := by
  decide +revert

/-- R82: every `SEL` with only bit 0 in use is that of a channel. -/
theorem exists_channelSel {sel : BitVec 4} (h : sel.toNat ≤ 1) : ∃ ch, channelSel ch = sel := by
  rcases sel_eq_zero_or_one h with rfl | rfl
  · exact ⟨.dht, rfl⟩
  · exact ⟨.radio, rfl⟩

/-- R82: every `SEL` with only bits 0 and 1 in use is that of a source and a kind. -/
theorem exists_routeSel {sel : BitVec 4} (h : sel.toNat ≤ 3) : ∃ src kind, routeSel src kind = sel := by
  have hsel : sel = 0 ∨ sel = 1 ∨ sel = 2 ∨ sel = 3 := by decide +revert
  rcases hsel with rfl | rfl | rfl | rfl
  · exact ⟨.wired, .temp, rfl⟩
  · exact ⟨.radio, .temp, rfl⟩
  · exact ⟨.wired, .hum, rfl⟩
  · exact ⟨.radio, .hum, rfl⟩

/-- R80, R84: lawful fields are packed by the word of some command, by the value of `OP`. -/
theorem exists_encode_of_lawfulFields {op sel : BitVec 4} {x8 : Byte} {a16 : Sample} {b32 : Word}
    (h : lawfulFields op sel x8 a16 b32) : ∃ i, encode i = packFields op sel x8 a16 b32 := by
  unfold lawfulFields at h
  split at h
  next hop =>
    obtain rfl : op = 0x0 := BitVec.eq_of_toNat_eq hop
    obtain ⟨rfl, rfl, rfl, rfl⟩ := h
    exact ⟨.nop, rfl⟩
  next hop =>
    obtain rfl : op = 0xA := BitVec.eq_of_toNat_eq hop
    obtain ⟨rfl, rfl, rfl, rfl⟩ := h
    exact ⟨.dhtClear, rfl⟩
  next hop =>
    obtain rfl : op = 0xB := BitVec.eq_of_toNat_eq hop
    obtain ⟨rfl, rfl, rfl, rfl⟩ := h
    exact ⟨.dhtDecode, rfl⟩
  next hop =>
    obtain rfl : op = 0x1 := BitVec.eq_of_toNat_eq hop
    obtain ⟨hsel, rfl, rfl⟩ := h
    obtain ⟨ch, rfl⟩ := exists_channelSel hsel
    exact ⟨.push ch a16, rfl⟩
  next hop =>
    obtain rfl : op = 0x2 := BitVec.eq_of_toNat_eq hop
    obtain ⟨hsel, rfl, rfl⟩ := h
    obtain ⟨ch, rfl⟩ := exists_channelSel hsel
    exact ⟨.capture ch a16, rfl⟩
  next hop =>
    obtain rfl : op = 0x3 := BitVec.eq_of_toNat_eq hop
    obtain ⟨hsel, rfl, rfl, rfl⟩ := h
    obtain ⟨ch, rfl⟩ := exists_channelSel hsel
    exact ⟨.pop ch, rfl⟩
  next hop =>
    obtain rfl : op = 0x4 := BitVec.eq_of_toNat_eq hop
    obtain ⟨rfl, rfl, rfl⟩ := h
    exact ⟨.crcRaw b32, rfl⟩
  next hop =>
    obtain rfl : op = 0x5 := BitVec.eq_of_toNat_eq hop
    obtain ⟨rfl, rfl, rfl⟩ := h
    exact ⟨.checksum b32, rfl⟩
  next hop =>
    obtain rfl : op = 0x6 := BitVec.eq_of_toNat_eq hop
    obtain ⟨rfl, rfl⟩ := h
    exact ⟨.verify b32 x8, rfl⟩
  next hop =>
    obtain rfl : op = 0xD := BitVec.eq_of_toNat_eq hop
    obtain ⟨rfl, rfl⟩ := h
    exact ⟨.frameEncode x8 b32, rfl⟩
  next hop =>
    obtain rfl : op = 0x7 := BitVec.eq_of_toNat_eq hop
    obtain ⟨hsel, rfl, rfl⟩ := h
    rcases sel_eq_zero_or_one hsel with rfl | rfl
    · exact ⟨.substEnc x8, rfl⟩
    · exact ⟨.substDec x8, rfl⟩
  next hop =>
    obtain rfl : op = 0x8 := BitVec.eq_of_toNat_eq hop
    obtain ⟨hsel, rfl, rfl, htop⟩ := h
    rw [← setWidth_of_byteOf_eq_zero htop]
    rcases sel_eq_zero_or_one hsel with rfl | rfl
    · exact ⟨.subst24Enc _, rfl⟩
    · exact ⟨.subst24Dec _, rfl⟩
  next hop =>
    obtain rfl : op = 0x9 := BitVec.eq_of_toNat_eq hop
    obtain ⟨rfl, rfl, rfl⟩ := h
    exact ⟨.dhtFeed a16, rfl⟩
  next hop =>
    obtain rfl : op = 0xC := BitVec.eq_of_toNat_eq hop
    obtain ⟨rfl, rfl, rfl⟩ := h
    exact ⟨.radioPulse a16, rfl⟩
  next hop =>
    obtain rfl : op = 0xE := BitVec.eq_of_toNat_eq hop
    obtain ⟨hsel, rfl, rfl⟩ := h
    obtain ⟨src, kind, rfl⟩ := exists_routeSel hsel
    exact ⟨.route src kind b32, rfl⟩
  next =>
    obtain rfl : op = 0xF := by clear h; decide +revert
    obtain ⟨rfl, rfl⟩ := h
    exact ⟨.readState x8 a16, rfl⟩

/-- R84: a lawful word is the word of some command. -/
theorem exists_encode_of_lawfulWord {w : Command} (h : lawfulWord w) : ∃ i, encode i = w := by
  obtain ⟨i, hi⟩ := exists_encode_of_lawfulFields h
  exact ⟨i, hi.trans (packFields_fields w)⟩

/-! ### What decodes -/

/-- R97: a word that decodes has been accepted by a row, so it is lawful. -/
theorem lawfulWord_of_decodeWord_ok {w : Command} {i : Instr} (h : decodeWord w = .ok i) : lawfulWord w := by
  unfold decodeWord at h
  split at h
  · next r hr => exact lawfulWord_of_accepts (List.mem_of_find?_eq_some hr) (List.find?_some (p := fun r : Row => r.accepts w) hr)
  · cases h

/-- Settles O1: the row of the command is the one the search finds, and it builds the command back. -/
theorem encodingRoundTrip : Obligations.EncodingRoundTrip := decodeWord_encode

/-- Settles O2: a word that decodes is lawful, so it is the word of some command, and that command is the one it decodes to. -/
theorem decodedWordIsItsEncoding : Obligations.DecodedWordIsItsEncoding := by
  intro w i hw
  obtain ⟨j, rfl⟩ := exists_encode_of_lawfulWord (lawfulWord_of_decodeWord_ok hw)
  rw [decodeWord_encode] at hw
  cases hw
  rfl

/-- Settles O4: a lawful word is the word of a command and decodes to it; a word that decodes is lawful. -/
theorem rejectedWordsAreTheReserved : Obligations.RejectedWordsAreTheReserved := by
  intro w
  constructor
  · intro hreject hlawful
    obtain ⟨i, rfl⟩ := exists_encode_of_lawfulWord hlawful
    rw [decodeWord_encode] at hreject
    cases hreject
  · intro hunlawful
    cases hw : decodeWord w with
    | ok i => exact absurd (lawfulWord_of_decodeWord_ok hw) hunlawful
    | error e => cases e; rfl

end Sys2Proof
end

section
/-! PROOFS. Ports: the responses. Every command answers once, with one of its statuses, and reads no earlier response
(30_encoding.md R95, R96). -/
namespace Sys2Proof.Machine

/-- The state with another record of the responses given (log 3). -/
def State.record (s : State) (rs : List (Port × Response)) : State := { s with responses := rs }

section
variable (s : State) (rs : List (Port × Response))

@[simp] theorem State.record_cfg : (s.record rs).cfg = s.cfg := rfl
@[simp] theorem State.record_inv : (s.record rs).inv = s.inv := rfl
@[simp] theorem State.record_dht : (s.record rs).dht = s.dht := rfl
@[simp] theorem State.record_lacrosse : (s.record rs).lacrosse = s.lacrosse := rfl
@[simp] theorem State.record_router : (s.record rs).router = s.router := rfl
@[simp] theorem State.record_ring (ch : Channel) : (s.record rs).ring ch = s.ring ch := by cases ch <;> rfl
@[simp] theorem State.record_setDht (d : Dht) : (s.record rs).setDht d = (s.setDht d).record rs := rfl
@[simp] theorem State.record_setLacrosse (l : Lacrosse) : (s.record rs).setLacrosse l = (s.setLacrosse l).record rs := rfl
@[simp] theorem State.record_setRouter (q : Router) : (s.record rs).setRouter q = (s.setRouter q).record rs := rfl
@[simp] theorem State.record_respond (st : Status) (a b : Word) :
    (s.record rs).respond st a b = s.record ((s.port, ⟨st, a, b⟩) :: rs) := rfl
@[simp] theorem storeSample_record (ch : Channel) (d : Sample) : storeSample ch d (s.record rs) = (storeSample ch d s).record rs := by
  cases ch <;> rfl
@[simp] theorem setPrev_record (ch : Channel) (raw : Sample) : setPrev ch raw (s.record rs) = (setPrev ch raw s).record rs := by
  cases ch <;> rfl
@[simp] theorem advanceRead_record (ch : Channel) : advanceRead ch (s.record rs) = (advanceRead ch s).record rs := by cases ch <;> rfl
@[simp] theorem clearCount_record : clearCount (s.record rs) = (clearCount s).record rs := rfl
@[simp] theorem captureDelta_record (ch : Channel) (raw : Sample) : captureDelta ch raw (s.record rs) = captureDelta ch raw s := by
  cases ch <;> rfl
@[simp] theorem ringRead_record (ch : Channel) (j : Nat) : ringRead ch j (s.record rs) = ringRead ch j s := by cases ch <;> rfl
@[simp] theorem readSlot_record (ch : Channel) : readSlot ch (s.record rs) = readSlot ch s := by cases ch <;> rfl
@[simp] theorem elementValue_record (e : Element) : elementValue (s.record rs) e = elementValue s e := by cases e <;> rfl

end

/-- What a meaning does as a function of the record it finds: it faults whatever the record, or it gives one response, with a status of `l` and
on port `p`, and what else it does is the same whatever the record. -/
def Answers (l : List Status) (p : Port) (m : List (Port × Response) → Result) : Prop :=
  (∃ f, ∀ rs, m rs = .fault f) ∨ ∃ u r, r.status ∈ l ∧ ∀ rs, m rs = .next (State.record u ((p, r) :: rs))

namespace Answers
variable {l : List Status} {p : Port} {s : State}

/-- A fault whatever the record. -/
theorem fault (f : Fault) : Answers l p fun _ => .fault f := .inl ⟨f, fun _ => rfl⟩

/-- One response and the same next state otherwise, whatever the record. -/
theorem next {u : State} {r : Response} (hp : u.port = p) (h : r.status ∈ l) :
    Answers l p fun rs => .next (u.record ((u.port, r) :: rs)) := hp ▸ .inr ⟨u, r, h, fun _ => rfl⟩

/-- The port check does not depend on the record. -/
theorem onPort {m : List (Port × Response) → Result} (hp : s.port = p) (h : Answers l p m) :
    Answers l p fun rs => onPort p (s.record rs) (m rs) := by
  have hm : (fun rs => Machine.onPort p (s.record rs) (m rs)) = m := funext fun rs => onPort_here (s := s.record rs) hp (m rs)
  rwa [hm]

/-- A branch on a condition that does not depend on the record. -/
theorem branch {c : Prop} {inst : List (Port × Response) → Decidable c} {m m' : List (Port × Response) → Result}
    (h : c → Answers l p m) (h' : ¬ c → Answers l p m') : Answers l p fun rs => @ite _ c (inst rs) (m rs) (m' rs) := by
  by_cases hc : c
  · simpa only [if_pos hc] using h hc
  · simpa only [if_neg hc] using h' hc

/-- The same where the branch is between two next states. -/
theorem next_branch {c : Prop} {inst : List (Port × Response) → Decidable c} {a b : List (Port × Response) → State}
    (h : c → Answers l p fun rs => .next (a rs)) (h' : ¬ c → Answers l p fun rs => .next (b rs)) :
    Answers l p fun rs => .next (@ite _ c (inst rs) (a rs) (b rs)) := by
  simpa only [apply_ite] using branch (inst := inst) h h'

/-- A command that answers a next state has given one response, and with another record gives the same response and the same next state otherwise. -/
theorem response {m : State → Result} {t : State} (h : Answers l p fun rs => m (s.record rs)) (ht : m s = .next t) :
    ∃ r, t.responses = (p, r) :: s.responses ∧ r.status ∈ l ∧ ∀ rs, m (s.record rs) = .next (t.record ((p, r) :: rs)) := by
  rcases h with ⟨f, hf⟩ | ⟨u, r, hr, hu⟩
  · cases ht.symm.trans (hf s.responses)
  · cases ht.symm.trans (hu s.responses)
    exact ⟨r, rfl, hr, hu⟩

end Answers

section
variable {s : State}

/-- R156: OK where the sample is stored, DROPPED where it is noise. -/
theorem execCapture_answers (hp : s.port = .producer) (ch : Channel) (raw : Sample) :
    Answers [.ok, .dropped] .producer fun rs => execCapture ch raw (s.record rs) := by
  refine .onPort hp ?_
  simp only [captureDelta_record, setPrev_record, storeSample_record, State.record_respond]
  refine .next_branch (fun _ => ?_) fun _ => ?_
  · exact .next (by simpa using hp) (by simp)
  · exact .next (by simpa using hp) (by simp)

/-- R160: EMPTY, or OK with the slot's content. -/
theorem execPop_answers (hp : s.port = .consumer) (ch : Channel) :
    Answers [.ok, .empty] .consumer fun rs => execPop ch (s.record rs) := by
  refine .onPort hp ?_
  simp only [State.record_ring, readSlot_record, ringRead_record, advanceRead_record, State.record_respond]
  refine .branch (fun _ => .next hp (by simp)) fun _ => ?_
  split
  · exact .next (by simpa using hp) (by simp)
  · exact .fault _

/-- R184: one status for each check that can fail, OK where none does. -/
theorem execDhtDecode_answers (hp : s.port = .consumer) :
    Answers (statusesOf .dhtDecode) .consumer fun rs => execDhtDecode (s.record rs) := by
  refine .onPort hp ?_
  simp only [State.record_dht, clearCount_record, finishFrame, State.record_respond, statusesOf]
  refine .branch (fun _ => .next hp (by simp)) fun _ => ?_
  split
  · exact .fault _
  · exact .next hp (by simp)
  · split
    · exact .fault _
    · exact .next hp (by simp)
    · split
      · exact .fault _
      · exact .next hp (by simp)
      · exact .next_branch (fun _ => .next hp (by simp)) fun _ => .next hp (by simp)

/-- R215, R218: a body bit, or the end of the frame with its checksum right or wrong. -/
theorem bodyPulse_answers (hp : s.port = .consumer) (nb : Bool) (d : Sample) :
    Answers (statusesOf (.radioPulse d)) .consumer fun rs => .next (bodyPulse nb (s.record rs)) := by
  simp only [bodyPulse, completeFrame, State.record_lacrosse, State.record_setLacrosse, State.record_cfg, State.record_respond, statusesOf]
  refine .next_branch (fun _ => ?_) fun _ => .next hp (by simp)
  exact .next_branch (fun _ => .next hp (by simp)) fun _ => .next hp (by simp)

/-- R210: the preamble, the first bit, a body pulse in no window, a body bit. -/
theorem execRadioPulse_answers (hp : s.port = .consumer) (d : Sample) :
    Answers (statusesOf (.radioPulse d)) .consumer fun rs => execRadioPulse d (s.record rs) := by
  refine .onPort hp ?_
  simp only [preamblePulse, firstBitPulse, State.record_lacrosse, State.record_setLacrosse, State.record_respond]
  refine .next_branch (fun _ => ?_) fun _ => .next_branch (fun _ => ?_) fun _ => ?_
  · exact .next_branch (fun _ => .next hp (by simp [statusesOf])) fun _ => .next hp (by simp [statusesOf])
  · exact .next_branch (fun _ => .next hp (by simp [statusesOf])) fun _ => .next hp (by simp [statusesOf])
  · split
    · exact .next hp (by simp [statusesOf])
    · next nb _ => exact bodyPulse_answers hp nb d

/-- R253: FORWARDED or SUPPRESSED. -/
theorem execRoute_answers (hp : s.port = .consumer) (src : Source) (kind : Kind) (raw : Word) :
    Answers [.forwarded, .suppressed] .consumer fun rs => execRoute src kind raw (s.record rs) := by
  refine .onPort hp ?_
  simp only [State.record_router, State.record_setRouter, State.record_respond]
  exact .next_branch (fun _ => .next hp (by simp)) fun _ => .next hp (by simp)

/-- R270, R272: ILLEGAL for a pair that is not admitted, OK with a value, or the fault of an entry never written. -/
theorem execReadState_answers (hp : s.port = .consumer) (sel8 : Byte) (idx : Sample) :
    Answers [.ok, .illegal] .consumer fun rs => execReadState sel8 idx (s.record rs) := by
  refine .onPort hp ?_
  simp only [State.record_cfg, elementValue_record, raiseIllegal, State.record_respond]
  split
  · exact .next hp (by simp)
  · split
    · exact .next hp (by simp)
    · exact .fault _

end

/-- R95, R96: on a port that accepts it, each command answers with one of its statuses, and the same whatever the record. -/
theorem exec_answers {i : Instr} {s : State} (hacc : acceptedOn s.port i = true) :
    Answers (statusesOf i) s.port fun rs => exec i (s.record rs) := by
  cases hp : s.port with
  | producer =>
    rw [hp] at hacc
    cases i with
    | nop => exact .next (u := s) hp (by decide)
    | push ch d =>
      refine .onPort hp ?_
      simp only [storeSample_record, State.record_respond]
      exact .next (by simpa using hp) (List.mem_singleton_self _)
    | capture ch raw => exact execCapture_answers hp ch raw
    | _ => exact absurd hacc Bool.false_ne_true
  | consumer =>
    rw [hp] at hacc
    cases i with
    | nop => exact .next (u := s) hp (by decide)
    | push | capture => exact absurd hacc Bool.false_ne_true
    | pop ch => exact execPop_answers hp ch
    | dhtDecode => exact execDhtDecode_answers hp
    | radioPulse d => exact execRadioPulse_answers hp d
    | route src kind raw => exact execRoute_answers hp src kind raw
    | readState sel8 idx => exact execReadState_answers hp sel8 idx
    | crcRaw | checksum | verify | substEnc | substDec | subst24Enc | subst24Dec | dhtFeed | dhtClear | frameEncode =>
      refine .onPort hp ?_
      simp only [State.record_cfg, State.record_inv, State.record_dht, State.record_setDht, clearCount_record, State.record_respond]
      exact .next hp (by simp [statusesOf])

/-- R95: on either port a command answers once, and the same whatever the record. -/
theorem exec_answers_once (i : Instr) (s : State) : ∃ l, Answers l s.port fun rs => exec i (s.record rs) := by
  cases hacc : acceptedOn s.port i with
  | true => exact ⟨_, exec_answers hacc⟩
  | false =>
    refine ⟨[.illegal], .inr ⟨s, ⟨.illegal, 0, 0⟩, by decide, fun rs => ?_⟩⟩
    exact exec_wrongPort (s := s.record rs) hacc

/-- Settles O18: what a command does is the same whatever the record but for the one response it puts on top. -/
theorem oneResponseAndNoneRead : Obligations.OneResponseAndNoneRead := by
  intro i s t h
  obtain ⟨l, hl⟩ := exec_answers_once i s
  obtain ⟨r, hresp, _, hsame⟩ := hl.response h
  exact ⟨r, hresp, hsame⟩

/-- The statuses in the order of the table of R96. -/
def Status.all : List Status :=
  [.ok, .empty, .noFrame, .dropped, .suppressed, .forwarded, .lengthError, .classErrorHum, .classErrorTemp, .classErrorCks, .checksumError,
    .radioClassError, .radioChecksumError, .illegal]

theorem Status.mem_all (a : Status) : a ∈ all := by cases a <;> decide

theorem Status.codes_nodup : (all.map code).Nodup := by decide

/-- R96: no two statuses have the same code. -/
theorem Status.code_injective {a b : Status} (h : a.code = b.code) : a = b :=
  List.inj_on_of_nodup_map codes_nodup a.mem_all b.mem_all h

/-- Settles O19: the statuses by the branches of each meaning, the codes by the table. -/
theorem statusesAreTheTabled : Obligations.StatusesAreTheTabled := by
  refine ⟨?_, rfl, fun _ _ => Status.code_injective⟩
  intro i s t hacc h
  obtain ⟨r, hresp, hstatus, _⟩ := (exec_answers hacc).response h
  exact ⟨r, hresp, hstatus⟩

end Sys2Proof.Machine
end

section
/-! PROOFS. Ports: which port accepts which command, what an illegal command does, and what each port owns (10_state.md R38,
30_encoding.md R98, R99). -/
namespace Sys2Proof.Machine

/-! ### Illegal commands -/

/-- R97: a word of no row answers ILLEGAL. -/
theorem runWord_of_decodeWord_error {w : Command} {e : DecodeReject} (he : decodeWord w = .error e) (s : State) :
    runWord w s = raiseIllegal s := by
  simp only [runWord, he]

/-- R271: a READ_STATE whose pair is not admitted is ILLEGAL, on either port. -/
theorem exec_readState_of_select_none {s : State} {sel8 : Byte} {idx : Sample} (h : selectElement s.cfg sel8 idx = none) :
    exec (.readState sel8 idx) s = raiseIllegal s := by
  cases hp : s.port with
  | producer => exact exec_wrongPort (by rw [hp]; rfl)
  | consumer =>
    rcases execReadState_cases sel8 idx hp with ⟨_, he⟩ | ⟨e, hsome, _⟩
    · exact he
    · cases h.symm.trans hsome

/-- Settles O15: each of the three cases ends in the one ILLEGAL answer, which only responds. -/
theorem illegalCommandsChangeNothing : Obligations.IllegalCommandsChangeNothing := by
  intro s
  refine ⟨?_, fun _ => exec_wrongPort, fun _ _ => exec_readState_of_select_none⟩
  intro p w rest hpending hreset hw
  calc step s = runWord w (s.present p rest) := step_of_pending_command hpending hreset
    _ = raiseIllegal (s.present p rest) := runWord_of_decodeWord_error hw _

/-! ### The port of a command -/

/-- R98: what the producer port accepts. -/
theorem acceptedOn_producer_iff {i : Instr} :
    acceptedOn .producer i = true ↔ i = .nop ∨ (∃ ch d, i = .push ch d) ∨ ∃ ch d, i = .capture ch d := by
  cases i <;> simp [acceptedOn]

/-- R98: what the consumer port accepts. -/
theorem acceptedOn_consumer_iff {i : Instr} :
    acceptedOn .consumer i = true ↔ (∀ ch d, i ≠ .push ch d) ∧ ∀ ch d, i ≠ .capture ch d := by
  cases i <;> simp [acceptedOn]

/-- R98, R99: on a port that does not accept it a command answers ILLEGAL. -/
theorem responses_of_wrongPort {i : Instr} {s t : State} (hacc : acceptedOn s.port i ≠ true) (h : exec i s = .next t) :
    t.responses = (s.port, ⟨.illegal, 0, 0⟩) :: s.responses := by
  rw [exec_wrongPort (Bool.eq_false_iff.mpr hacc)] at h
  cases h
  rfl

/-- R98: READ_STATE is a consumer command. -/
theorem port_of_accepted_readState {p : Port} {sel8 : Byte} {idx : Sample} (h : acceptedOn p (.readState sel8 idx) = true) : p = .consumer := by
  cases p with
  | producer => exact absurd h Bool.false_ne_true
  | consumer => rfl

/-- R96: only READ_STATE has ILLEGAL among its own statuses. -/
theorem illegal_mem_statusesOf {i : Instr} (h : .illegal ∈ statusesOf i) : ∃ sel8 idx, i = .readState sel8 idx := by
  cases i <;> simp [statusesOf] at h ⊢

/-- R271: a READ_STATE of an admitted pair that answers on the consumer port answers OK. -/
theorem execReadState_ok {s t : State} {sel8 : Byte} {idx : Sample} (hp : s.port = .consumer) (hsel : (selectElement s.cfg sel8 idx).isSome)
    (h : execReadState sel8 idx s = .next t) : ∃ v, t = s.respond .ok v 0 := by
  rcases execReadState_cases sel8 idx hp with ⟨hnone, _⟩ | ⟨e, _, ⟨v, _, he⟩ | ⟨f, _, he⟩⟩
  · simp [hnone] at hsel
  · cases he.symm.trans h
    exact ⟨v, rfl⟩
  · cases he.symm.trans h

/-- R98, R271: on a port that accepts it no command answers ILLEGAL, where the pair of a READ_STATE is admitted. -/
theorem not_illegal_of_accepted {i : Instr} {s t : State} (hacc : acceptedOn s.port i = true)
    (hsel : ∀ sel8 idx, i = .readState sel8 idx → (selectElement s.cfg sel8 idx).isSome) (h : exec i s = .next t) :
    ∃ r, t.responses = (s.port, r) :: s.responses ∧ r.status ≠ .illegal := by
  obtain ⟨r, hresp, hstatus, _⟩ := (exec_answers hacc).response h
  refine ⟨r, hresp, fun hillegal => ?_⟩
  obtain ⟨sel8, idx, rfl⟩ := illegal_mem_statusesOf (hillegal ▸ hstatus)
  obtain ⟨v, rfl⟩ := execReadState_ok (port_of_accepted_readState hacc) (hsel sel8 idx rfl) h
  cases hresp
  cases hillegal

/-- Settles O16: a port that does not accept a command gives the one ILLEGAL answer; on a port that accepts it the command answers with its own
statuses, and ILLEGAL is one of them for a READ_STATE of a pair that is not admitted only. -/
theorem portsAcceptTheirCommands : Obligations.PortsAcceptTheirCommands := by
  intro i s t h
  refine ⟨fun hp hpush hcapture hnop => ?_, fun hp hi => ?_, fun hacc hsel => not_illegal_of_accepted ?_ hsel h⟩
  · rw [← hp]
    refine responses_of_wrongPort ?_ h
    rw [hp, Ne, acceptedOn_producer_iff]
    rintro (hi | ⟨ch, d, hi⟩ | ⟨ch, d, hi⟩)
    · exact hnop hi
    · exact hpush ch d hi
    · exact hcapture ch d hi
  · rw [← hp]
    refine responses_of_wrongPort ?_ h
    rw [hp, Ne, acceptedOn_consumer_iff]
    rintro ⟨hpush, hcapture⟩
    rcases hi with ⟨ch, d, hi⟩ | ⟨ch, d, hi⟩
    · exact hpush ch d hi
    · exact hcapture ch d hi
  · rcases hacc with ⟨hp, hi⟩ | ⟨hp, hi⟩
    · rw [hp]; exact acceptedOn_producer_iff.mpr hi
    · rw [hp]; exact acceptedOn_consumer_iff.mpr hi

/-! ### What each port owns -/

theorem storeSample_keeps_r (s : State) (ch : Channel) (d : Sample) (c : Channel) :
    ((storeSample ch d s).ring c).r = (s.ring c).r := by
  by_cases hc : c = ch
  · subst hc; simp
  · rw [storeSample_ring_other s ch d hc]

theorem setPrev_keeps_r (s : State) (ch : Channel) (raw : Sample) (c : Channel) :
    ((setPrev ch raw s).ring c).r = (s.ring c).r := by
  by_cases hc : c = ch
  · subst hc; simp
  · rw [setPrev_ring_other s ch raw hc]

theorem advanceRead_keeps_producer_side (s : State) (ch c : Channel) :
    ((advanceRead ch s).ring c).w = (s.ring c).w ∧ ((advanceRead ch s).ring c).slots = (s.ring c).slots ∧
      ((advanceRead ch s).ring c).prev = (s.ring c).prev := by
  by_cases hc : c = ch
  · subst hc; simp
  · simp [advanceRead_ring_other s ch hc]

/-- R38: the producer writes only `W`, `RING` and `PREV`. -/
theorem Effect.of_producer {s u : State} (h : Effect s .producer u) :
    (∀ ch, (u.ring ch).r = (s.ring ch).r) ∧ u.dht = s.dht ∧ u.lacrosse = s.lacrosse ∧ u.router = s.router := by
  cases h with
  | unchanged => exact ⟨fun _ => rfl, rfl, rfl, rfl⟩
  | stored ch d => exact ⟨storeSample_keeps_r s ch d, by simp⟩
  | snapshot ch raw => exact ⟨setPrev_keeps_r s ch raw, by simp⟩
  | captured ch d raw => exact ⟨fun c => by rw [storeSample_keeps_r, setPrev_keeps_r], by simp⟩

/-- R38: the consumer writes none of them. -/
theorem Effect.of_consumer {s u : State} (h : Effect s .consumer u) (ch : Channel) :
    (u.ring ch).w = (s.ring ch).w ∧ (u.ring ch).slots = (s.ring ch).slots ∧ (u.ring ch).prev = (s.ring ch).prev := by
  cases h with
  | popped c => exact advanceRead_keeps_producer_side s c ch
  | _ => simp

/-- Settles O17: the effects a command can have on each port write only what that port owns, and a response writes none of it. -/
theorem portsOwnTheirState : Obligations.PortsOwnTheirState := by
  intro i s t h
  obtain ⟨u, st, a, b, hu, rfl⟩ := exec_effect h
  obtain ⟨hcfg, hinv, hreset, hpending, hport, _⟩ := hu.fixed
  refine ⟨fun hp => ?_, fun hp => ?_, hcfg, hinv, hreset, hpending, hport⟩
  · rw [hp] at hu
    simpa using hu.of_producer
  · rw [hp] at hu
    simpa using hu.of_consumer

end Sys2Proof.Machine
end

section
/-! PROOFS. Checksum: the three answers, the table of R112 as eight shifts, the CRC as the bit-serial remainder and as a linear map
(40_checksum.md R111 to R118). -/
namespace Sys2Proof.Machine

/-! ### The answers -/

section
variable {s : State} (hp : s.port = .consumer) (p : Word)
include hp

/-- R114: CRC_RAW answers the raw CRC. -/
theorem exec_crcRaw :
    exec (.crcRaw p) s = .next { s with responses := (.consumer, ⟨.ok, zext32 (crc8 s.cfg.crcTable p), 0⟩) :: s.responses } := by
  rw [← hp]
  exact onPort_here hp _

/-- R116: CHECKSUM answers the redirected CRC. -/
theorem exec_checksum :
    exec (.checksum p) s = .next { s with responses := (.consumer, ⟨.ok, zext32 (checksumOf s.cfg p), 0⟩) :: s.responses } := by
  rw [← hp]
  exact onPort_here hp _

/-- R118: VERIFY answers whether its byte is the redirected CRC. -/
theorem exec_verify (c : Byte) :
    exec (.verify p c) s = .next { s with responses := (.consumer, ⟨.ok, flagWord (c == checksumOf s.cfg p), 0⟩) :: s.responses } := by
  rw [← hp]
  exact onPort_here hp _

end

/-- R111: the four table reads, the first of them at the top byte since the initial value is 0. -/
theorem crc8_eq_chain (t : Table) (p : Word) :
    crc8 t p = tableAt t (tableAt t (tableAt t (tableAt t (byteOf p 3) ^^^ byteOf p 2) ^^^ byteOf p 1) ^^^ byteOf p 0) := by
  simp only [crc8, List.foldl_cons, List.foldl_nil, BitVec.ofNat_eq_ofNat, BitVec.zero_xor]

/-- Settles O29: the answer of CRC_RAW, and the four reads of its CRC written out. -/
theorem crcRawChainsTheTable : Obligations.CrcRawChainsTheTable := by
  intro p s hp
  rw [exec_crcRaw hp, crc8_eq_chain]
  rfl

/-- Settles O32: the answers of CHECKSUM and VERIFY, the flag of VERIFY as a choice between 1 and 0. -/
theorem checksumAndVerifyAnswer : Obligations.ChecksumAndVerifyAnswer := by
  intro p c s hp
  refine ⟨exec_checksum hp p, ?_⟩
  rw [exec_verify hp]
  simp only [flagWord, beq_iff_eq, checksumOf]

/-! ### Linearity -/

/-- A shift of R112 is linear: the bit shifted out of an exclusive or is the exclusive or of the bits shifted out. -/
theorem crcShift_xor : Function.Semiconj₂ crcShift (· ^^^ ·) (· ^^^ ·) := by
  intro a b
  simp only [crcShift, BitVec.getLsbD_xor, BitVec.shiftLeft_xor_distrib]
  cases a.getLsbD 7 <;> cases b.getLsbD 7
  case false.false => rfl
  case true.true =>
    calc a <<< 1 ^^^ b <<< 1 = a <<< 1 ^^^ b <<< 1 ^^^ (0x31#8 ^^^ 0x31#8) := by simp
      _ = a <<< 1 ^^^ 0x31#8 ^^^ (b <<< 1 ^^^ 0x31#8) := by ac_rfl
  all_goals
    simp only [Bool.false_bne, Bool.bne_false, if_true, Bool.false_eq_true, if_false]
    ac_rfl

/-- R112: an entry of the table is eight shifts, so the table is linear. -/
theorem crcEntry_xor (a b : Byte) : crcEntry (a ^^^ b) = crcEntry a ^^^ crcEntry b := crcShift_xor.iterate 8 a b

/-- One byte of the CRC with the table of R112 (R111). -/
def crcByte (c x : Byte) : Byte := crcEntry (c ^^^ x)

theorem crcByte_xor (c d x y : Byte) : crcByte (c ^^^ d) (x ^^^ y) = crcByte c x ^^^ crcByte d y := by
  rw [crcByte, crcByte, crcByte, ← crcEntry_xor]
  ac_rfl

/-- R111 with the table of R112: the CRC takes the bytes one by one, most significant first. -/
theorem crc8_crcTable0x31 (p : Word) : crc8 crcTable0x31 p = [3, 2, 1, 0].foldl (fun c k => crcByte c (byteOf p k)) 0 := by
  simp only [crc8, crcTable0x31, tableAt_buildTable, crcByte]

theorem byteOf_xor {n : Nat} (v w : BitVec n) (k : Nat) : byteOf (v ^^^ w) k = byteOf v k ^^^ byteOf w k :=
  BitVec.extractLsb'_xor

/-- Taking the bytes at positions `ks` is linear in the CRC before them and in the value they are taken from. -/
theorem foldl_crcByte_xor (ks : List Nat) (c d : Byte) (p q : Word) :
    ks.foldl (fun c k => crcByte c (byteOf (p ^^^ q) k)) (c ^^^ d) =
      ks.foldl (fun c k => crcByte c (byteOf p k)) c ^^^ ks.foldl (fun d k => crcByte d (byteOf q k)) d :=
  List.foldl_hom₂ ks (· ^^^ ·) _ _ _ c d fun c d k => by rw [byteOf_xor, crcByte_xor]

/-- Settles O31: the CRC is the fold over its four bytes from 0, which is 0 ^^^ 0. -/
theorem crcIsLinear : Obligations.CrcIsLinear := by
  intro p q
  rw [crc8_crcTable0x31, crc8_crcTable0x31, crc8_crcTable0x31, ← foldl_crcByte_xor, BitVec.xor_self]
  rfl

/-! ### The bit-serial CRC -/

/-- The bits of a value, most significant first. -/
def bitsOf {n : Nat} (v : BitVec n) : List Bool := (List.range n).map fun k => v.getLsbD (n - 1 - k)

theorem bitsOf_byteOf {n : Nat} (v : BitVec n) (k : Nat) :
    bitsOf (byteOf v k) = (List.range 8).map fun j => v.getLsbD (8 * k + (7 - j)) := by
  refine List.map_congr_left fun j _ => ?_
  rw [byteOf, BitVec.getLsbD_extractLsb', decide_eq_true (by omega), Bool.true_and]

/-- The bits of a word are those of its bytes, most significant first (R53). -/
theorem bitsOf_word (p : Word) : bitsOf p = [3, 2, 1, 0].flatMap fun k => bitsOf (byteOf p k) := by
  simp only [bitsOf_byteOf]
  rfl

theorem crcSerial_eq_foldl_bitsOf (p : Word) : crcSerial p = (bitsOf p).foldl crcBit 0 := by
  rw [bitsOf, List.foldl_map]
  rfl

/-- The top bit of `z` taken serially into a register that holds `y ^^^ z` cancels, so the step decides as a shift of `y` does. -/
theorem crcBit_xor (y z : Byte) : crcBit (y ^^^ z) (z.getLsbD 7) = crcShift y ^^^ z <<< 1 := by
  simp only [crcBit, crcShift, BitVec.getLsbD_xor, Bool.xor_assoc, Bool.xor_self, Bool.xor_false, BitVec.shiftLeft_xor_distrib]
  split
  · ac_rfl
  · rfl

/-- After `n` bits of a byte taken serially: the table's shifts begin with the whole byte in the register, so the two registers differ by the bits
of the byte not yet taken. -/
theorem foldl_crcBit_eq_iterate (c x : Byte) (n : Nat) (hn : n ≤ 8) :
    (List.range n).foldl (fun c k => crcBit c (x.getLsbD (7 - k))) c = crcShift^[n] (c ^^^ x) ^^^ x <<< n := by
  induction n with
  | zero => simp
  | succ n ih =>
    have htop : x.getLsbD (7 - n) = (x <<< n).getLsbD 7 := by
      rw [BitVec.getLsbD_shiftLeft, decide_eq_false (show ¬ 7 < n by omega)]
      rfl
    rw [List.range_succ, List.foldl_concat, ih (by omega), htop, crcBit_xor, Function.iterate_succ_apply', BitVec.shiftLeft_add]

/-- R112: eight bit-serial steps are one read of the table. -/
theorem foldl_crcBit_bitsOf (c x : Byte) : (bitsOf x).foldl crcBit c = crcByte c x := by
  rw [bitsOf, List.foldl_map, foldl_crcBit_eq_iterate c x 8 le_rfl, BitVec.shiftLeft_eq_zero le_rfl, BitVec.xor_zero]
  rfl

/-- R111, R112: the bit-serial CRC of a word is the table-driven one. -/
theorem crcSerial_eq_crc8 (p : Word) : crcSerial p = crc8 crcTable0x31 p := by
  rw [crcSerial_eq_foldl_bitsOf, bitsOf_word, List.foldl_flatMap, crc8_crcTable0x31]
  simp only [foldl_crcBit_bitsOf]

/-- Settles O30: the answer of CRC_RAW, its CRC taken bit by bit. -/
theorem crcRawIsThePolynomialRemainder : Obligations.CrcRawIsThePolynomialRemainder := by
  intro p s hp htable
  rw [exec_crcRaw hp, htable, crcSerial_eq_crc8]

end Sys2Proof.Machine
end

section
/-! PROOFS. Substitution: the four answers, the true inverse as the two-sided inverse of `SUBST`, the 24-bit commands byte by byte
(41_substitution.md R130 to R136). -/
namespace Sys2Proof.Machine

/-! ### The answers -/

/-- R95: a response on a known port, written out. -/
theorem State.respond_of_port {s : State} {p : Port} (hp : s.port = p) (st : Status) (a b : Word) :
    s.respond st a b = { s with responses := (p, ⟨st, a, b⟩) :: s.responses } := by
  rw [State.respond, hp]

section
variable {s : State} (hp : s.port = .consumer)
include hp

/-- R131: SUBST_ENC answers an entry of `SUBST`. -/
theorem exec_substEnc (b : Byte) : exec (.substEnc b) s = .next (s.respond .ok (zext32 (tableAt s.cfg.subst b)) 0) := onPort_here hp _

/-- R132: SUBST_DEC answers an entry of `INV`. -/
theorem exec_substDec (b : Byte) : exec (.substDec b) s = .next (s.respond .ok (zext32 (tableAt s.inv b)) 0) := onPort_here hp _

/-- R135: SUBST24_ENC answers its 24-bit encode with `SUBST`. -/
theorem exec_subst24Enc (v : Triple) : exec (.subst24Enc v) s = .next (s.respond .ok (zext32 (subst24EncOf s.cfg.subst v)) 0) :=
  onPort_here hp _

/-- R136: SUBST24_DEC answers its 24-bit decode with `INV`. -/
theorem exec_subst24Dec (v : Triple) : exec (.subst24Dec v) s = .next (s.respond .ok (zext32 (subst24DecOf s.inv v)) 0) :=
  onPort_here hp _

end

/-- R135: the byte an encode puts in each place, the exchange of bytes 1 and 2 carried out. -/
theorem subst24EncOf_eq_bytes (t : Table) (v : Triple) :
    subst24EncOf t v = tableAt t (byteOf v 1) ++ tableAt t (byteOf v 2) ++ tableAt t (byteOf v 0) := by
  obtain ⟨h2, h1, h0⟩ := byteOf_triple (byteOf v 1) (byteOf v 2) (byteOf v 0)
  rw [subst24EncOf, substBytes, reorder, h2, h1, h0]

/-- R134: substitution commutes with the reorder, so with one table the decode is the encode. -/
theorem subst24DecOf_eq_subst24EncOf (t : Table) (v : Triple) : subst24DecOf t v = subst24EncOf t v := by
  obtain ⟨h2, h1, h0⟩ := byteOf_triple (tableAt t (byteOf v 2)) (tableAt t (byteOf v 1)) (tableAt t (byteOf v 0))
  rw [subst24EncOf_eq_bytes, subst24DecOf, reorder, substBytes, h2, h1, h0]

/-- Settles O33: the answers of SUBST_ENC and SUBST_DEC on the consumer port. -/
theorem substCommandsAnswerTheTables : Obligations.SubstCommandsAnswerTheTables := by
  intro b s hp
  rw [exec_substEnc hp, exec_substDec hp, State.respond_of_port hp, State.respond_of_port hp]
  exact ⟨rfl, rfl⟩

/-- Settles O34: the answers of SUBST24_ENC and SUBST24_DEC, both with bytes 1 and 2 exchanged. -/
theorem subst24CommandsReorderAndSubstitute : Obligations.Subst24CommandsReorderAndSubstitute := by
  intro v s hp
  rw [exec_subst24Enc hp, exec_subst24Dec hp, subst24DecOf_eq_subst24EncOf, subst24EncOf_eq_bytes, subst24EncOf_eq_bytes,
    State.respond_of_port hp, State.respond_of_port hp]
  exact ⟨rfl, rfl⟩

/-! ### The true inverse -/

/-- R32: a one-to-one table of 256 bytes takes every value, so the search for an inverse entry finds one. -/
theorem IsPermutation.tableAt_inverseEntry {t : Table} (h : IsPermutation t) (c : Byte) : tableAt t (inverseEntry t c) = c := by
  have hinj : Function.Injective (tableAt t) := fun _ _ hab => h.injective hab
  obtain ⟨i, hi⟩ := Finite.surjective_of_injective hinj c
  exact inverseEntry_spec hi

/-- R130, R31: the true inverse of a permutation undoes it, and the permutation undoes its true inverse. -/
theorem IsPermutation.tableAt_eq_iff {t : Table} (h : IsPermutation t) {b c : Byte} : tableAt t b = c ↔ tableAt (inverseOf t) c = b := by
  rw [inverseOf, tableAt_buildTable]
  constructor
  · intro hc
    exact h.injective ((h.tableAt_inverseEntry c).trans hc.symm)
  · rintro rfl
    exact h.tableAt_inverseEntry c

/-- R53: a 24-bit value put together from bytes is `u` where each byte is the one `u` has in its place. -/
theorem triple_eq_iff {x y z : Byte} {u : Triple} : x ++ y ++ z = u ↔ x = byteOf u 2 ∧ y = byteOf u 1 ∧ z = byteOf u 0 := by
  constructor
  · rintro rfl
    obtain ⟨h2, h1, h0⟩ := byteOf_triple x y z
    exact ⟨h2.symm, h1.symm, h0.symm⟩
  · rintro ⟨rfl, rfl, rfl⟩
    calc byteOf u 2 ++ byteOf u 1 ++ byteOf u 0
        = u.extractLsb' 8 16 ++ u.extractLsb' 0 8 := congrArg (· ++ byteOf u 0) (BitVec.extractLsb'_append_extractLsb'_eq_extractLsb' rfl)
      _ = u := BitVec.extractLsb'_append_extractLsb'

/-- R136: on each byte the true inverse undoes the permutation, and the exchange of bytes 1 and 2 undoes itself (R133). -/
theorem IsPermutation.subst24EncOf_eq_iff {t : Table} (h : IsPermutation t) {v u : Triple} :
    subst24EncOf t v = u ↔ subst24DecOf (inverseOf t) u = v := by
  rw [subst24DecOf_eq_subst24EncOf, subst24EncOf_eq_bytes, subst24EncOf_eq_bytes, triple_eq_iff, triple_eq_iff,
    h.tableAt_eq_iff, h.tableAt_eq_iff, h.tableAt_eq_iff]
  exact and_left_comm

/-- R9: zero-extension loses nothing. -/
theorem zext32_inj {n : Nat} (hn : n ≤ 32) {a b : BitVec n} : zext32 a = zext32 b ↔ a = b := by
  rw [← BitVec.toNat_inj, zext32, zext32, BitVec.toNat_setWidth_of_le hn, BitVec.toNat_setWidth_of_le hn, BitVec.toNat_inj]

/-- Two answers with the same status and second field are the same outcome where their first fields agree. -/
theorem next_respond_inj {s : State} {st : Status} {a a' b : Word} :
    (.next (s.respond st a b) : Result) = .next (s.respond st a' b) ↔ a = a' := by
  simp [State.respond]

/-- Settles O35: an answer fixes the value that was extended, and `INV` is the true inverse of the permutation `SUBST`. -/
theorem substitutionIsUndone : Obligations.SubstitutionIsUndone := by
  intro s hs hmode hp
  obtain ⟨-, hperm⟩ := hs.build
  have hinv : s.inv = inverseOf s.cfg.subst := by rw [hs.inverse, hmode, inverseTable]
  refine ⟨fun b c => ?_, fun v u => ?_⟩
  · rw [exec_substEnc hp, exec_substDec hp, hinv, next_respond_inj, next_respond_inj, zext32_inj (by decide), zext32_inj (by decide)]
    exact hperm.tableAt_eq_iff
  · rw [exec_subst24Enc hp, exec_subst24Dec hp, hinv, next_respond_inj, next_respond_inj, zext32_inj (by decide), zext32_inj (by decide)]
    exact hperm.subst24EncOf_eq_iff

/-! ### The zero table -/

/-- R31, C6: every entry of the all-zero table. -/
@[simp] theorem tableAt_zeroTable (b : Byte) : tableAt zeroTable b = 0 := tableAt_buildTable _ b

/-- Settles O36: `INV` is the all-zero table, and a decode puts its answer together from its entries. -/
theorem referenceZeroDecodesToZero : Obligations.ReferenceZeroDecodesToZero := by
  intro s b v hs hmode hp
  have hinv : ∀ c, tableAt s.inv c = 0 := by
    rw [hs.inverse, hmode]
    exact tableAt_zeroTable
  rw [exec_substDec hp, exec_subst24Dec hp, subst24DecOf_eq_subst24EncOf, subst24EncOf_eq_bytes, hinv, hinv, hinv, hinv,
    State.respond_of_port hp, State.respond_of_port hp]
  exact ⟨rfl, rfl⟩

end Sys2Proof.Machine
end

section
/-! PROOFS. Ring: what each command of the ring family does, and its frame (42_ring_buffer.md R150 to R160). -/
namespace Sys2Proof.Machine

/-! ### NOP -/

/-- R83, R84: the only lawful word of opcode 0 is 0. -/
theorem eq_zero_of_lawfulWord {w : Command} (hop : fieldOp w = 0) (h : lawfulWord w) : w = 0 := by
  rw [lawfulWord, hop] at h
  obtain ⟨hsel, hx8, ha16, hb32⟩ := h
  rw [← packFields_fields w, hop, hsel, hx8, ha16, hb32]
  rfl

/-- Settles O20: NOP only responds, and 0 is the word of NOP; another word of its opcode is not lawful, so it is rejected. -/
theorem nopAnswersOkOnBothPorts : Obligations.NopAnswersOkOnBothPorts :=
  ⟨fun _ => rfl, decodeWord_encode .nop,
    fun _ hop hne => (rejectedWordsAreTheReserved _).mpr fun h => hne (eq_zero_of_lawfulWord hop h)⟩

/-! ### PUSH and CAPTURE -/

section
variable {s : State} (hp : s.port = .producer)
include hp

/-- R152: PUSH stores and answers OK. -/
theorem exec_push (ch : Channel) (d : Sample) : exec (.push ch d) s = .next ((storeSample ch d s).respond .ok 0 0) :=
  onPort_here hp _

/-- R156: CAPTURE of noise takes the snapshot and drops the duration. -/
theorem exec_capture_noise {ch : Channel} {raw : Sample} (h : isNoise ch (captureDelta ch raw s) = true) :
    exec (.capture ch raw) s = .next ((setPrev ch raw s).respond .dropped (zext32 (captureDelta ch raw s)) 0) := by
  rw [exec, execCapture, onPort_here hp, if_pos h]

/-- R156: CAPTURE of a duration that is no noise takes the snapshot and stores it. -/
theorem exec_capture_stored {ch : Channel} {raw : Sample} (h : ¬ isNoise ch (captureDelta ch raw s) = true) :
    exec (.capture ch raw) s = .next ((storeSample ch (captureDelta ch raw s) (setPrev ch raw s)).respond .ok
      (zext32 (captureDelta ch raw s)) 0) := by
  rw [exec, execCapture, onPort_here hp, if_neg h]

end

/-- R51, R152: a store puts the sample in the slot of the write index. -/
theorem storeSample_read_slot (ch : Channel) (d : Sample) (s : State) :
    Memory.read ((storeSample ch d s).ring ch).slots (slotOf s.cfg ch (s.ring ch).w) = some d := by
  rw [storeSample_ring_slots, storeSlot, Memory.read_write_same]

/-- R51, R152: a store leaves every other slot. -/
theorem storeSample_read_other (ch : Channel) (d : Sample) (s : State) {j : Nat} (hj : j ≠ slotOf s.cfg ch (s.ring ch).w) :
    Memory.read ((storeSample ch d s).ring ch).slots j = Memory.read (s.ring ch).slots j := by
  rw [storeSample_ring_slots, storeSlot, Memory.read_write_other _ _ hj]

/-- Settles O21: PUSH is the store, which writes one slot and the write index of its ring. -/
theorem pushStoresSample : Obligations.PushStoresSample := by
  intro ch d s hp
  refine ⟨_, exec_push hp ch d, ?_⟩
  simp only [State.respond_ring]
  refine ⟨storeSample_read_slot ch d s, fun j => storeSample_read_other ch d s, by simp, by simp, by simp,
    fun c => storeSample_ring_other s ch d, ?_⟩
  simp [hp]

/-- Settles O22: CAPTURE takes the snapshot; a duration that is no noise is then stored as PUSH stores it. -/
theorem captureMeasuresFiltersStores : Obligations.CaptureMeasuresFiltersStores := by
  intro ch raw s hp
  have hnoise : isNoise ch (captureDelta ch raw s) = true ↔ ch = .radio ∧ (raw - (s.ring ch).prev).toNat < 400 := isNoise_iff
  by_cases h : isNoise ch (captureDelta ch raw s) = true
  · refine ⟨_, exec_capture_noise hp h, ?_⟩
    rw [if_pos (hnoise.mp h)]
    simp only [State.respond_ring]
    refine ⟨by simp, by simp, ⟨by simp, by simp, by simp [hp, captureDelta]⟩, fun c => setPrev_ring_other s ch raw, ?_⟩
    simp
  · refine ⟨_, exec_capture_stored hp h, ?_⟩
    rw [if_neg (mt hnoise.mpr h)]
    simp only [State.respond_ring]
    have hslot : slotOf (setPrev ch raw s).cfg ch ((setPrev ch raw s).ring ch).w = slotOf s.cfg ch (s.ring ch).w := by simp
    refine ⟨by simp, by simp, ⟨by simp, hslot ▸ storeSample_read_slot ch _ _, fun j hj => ?_, by simp [hp, captureDelta]⟩,
      fun c hc => ?_, ?_⟩
    · rw [storeSample_read_other ch _ _ (hslot.symm ▸ hj), setPrev_ring_slots]
    · rw [storeSample_ring_other _ ch _ hc, setPrev_ring_other s ch raw hc]
    · simp

/-! ### POP -/

section
variable {ch : Channel} {s : State} (hp : s.port = .consumer)
include hp

/-- R160: POP of a ring whose indices meet answers EMPTY. -/
theorem exec_pop_empty (h : (s.ring ch).r = (s.ring ch).w) : exec (.pop ch) s = .next (s.respond .empty 0 0) := by
  rw [exec, execPop, onPort_here hp, if_pos h]

/-- R272: POP of a slot never written stops the model. -/
theorem exec_pop_unwritten (hne : (s.ring ch).r ≠ (s.ring ch).w) (h : ringRead ch (readSlot ch s) s = none) :
    exec (.pop ch) s = .fault (.unwrittenSlot ch (readSlot ch s)) := by
  rw [exec, execPop, onPort_here hp, if_neg hne, h]

end

/-- Settles O23: the three branches of POP; the middle one moves the read index of its ring. -/
theorem popTakesTheSlotOrAnswersEmpty : Obligations.PopTakesTheSlotOrAnswersEmpty := by
  intro ch s hp
  refine ⟨fun h => ?_, fun d hne hd => ⟨_, execPop_next hp hne hd, ?_⟩, exec_pop_unwritten hp⟩
  · rw [exec_pop_empty hp h, State.respond_of_port hp]
  · simp only [State.respond_ring]
    refine ⟨State.setRing_ring_same s ch _, fun c => advanceRead_ring_other s ch, ?_⟩
    simp [hp]

end Sys2Proof.Machine
end

section
/-! PROOFS. Ring: runs of PUSH and POP (20_memory.md R63, R64, 42_ring_buffer.md R162). While the ring has room its unread samples are the
queue's; a run of PUSHes alone leaves in every slot the latest sample stored there. -/
namespace Sys2Proof.Machine

variable {ch : Channel}

/-! ### One use of a ring in a run -/

/-- R152: a PUSH in a run is the store. -/
theorem perform_push (d : Sample) (cs : List (Port × Instr)) (s : State) :
    perform ((.producer, .push ch d) :: cs) s =
      perform cs ((storeSample ch d (s.present .producer s.pending)).respond .ok 0 0) :=
  perform_cons_next (exec_push (s := s.present .producer s.pending) rfl ch d) cs

/-- R160: a POP in a run of a ring whose indices meet answers EMPTY. -/
theorem perform_pop_empty {s : State} (h : (s.ring ch).r = (s.ring ch).w) (cs : List (Port × Instr)) :
    perform ((.consumer, .pop ch) :: cs) s = perform cs ((s.present .consumer s.pending).respond .empty 0 0) :=
  perform_cons_next (exec_pop_empty (s := s.present .consumer s.pending) rfl (by simpa using h)) cs

/-- R160: a POP in a run takes the oldest unread sample. -/
theorem perform_pop {s : State} {d : Sample} {q : List (Option Sample)} (h : unread s.cfg ch (s.ring ch) = some d :: q)
    (cs : List (Port × Instr)) :
    ∃ t, perform ((.consumer, .pop ch) :: cs) s = perform cs t ∧ t.cfg = s.cfg ∧
      t.responses = (.consumer, ⟨.ok, zext32 d, 0⟩) :: s.responses ∧ unread t.cfg ch (t.ring ch) = q := by
  obtain ⟨t, ht, hresp, hq⟩ := (ringStepsAreQueueSteps ch (s.present .consumer s.pending)).2 d q rfl (by simpa using h)
  exact ⟨t, perform_cons_next ht cs, (exec_tables ht).1, hresp, hq⟩

/-! ### The ring as a queue -/

theorem unread_length (cfg : Params) (q : Ring) : (unread cfg ch q).length = (q.w - q.r).toNat := by
  simp [unread]

/-- R160: a ring with nothing unread has its indices together. -/
theorem eq_of_unread_eq_nil {cfg : Params} {q : Ring} (h : unread cfg ch q = []) : q.r = q.w := by
  by_contra hne
  rw [unread_eq_cons hne] at h
  exact List.cons_ne_nil _ _ h

/-- R63: the ring is the queue `q`, as long as the queue fits into it; of an overrun ring nothing is said. -/
def HoldsQueue (ch : Channel) (s : State) (q : List Sample) : Prop :=
  q.length ≤ capOf s.cfg ch → unread s.cfg ch (s.ring ch) = q.map some

/-- R152: a store appends to the queue. -/
theorem HoldsQueue.store {s : State} {q : List Sample} (h : HoldsQueue ch s q) (d : Sample) : HoldsQueue ch (storeSample ch d s) (q ++ [d]) := by
  intro hfits
  rw [storeSample_cfg, List.length_append, List.length_singleton] at hfits
  have hq : unread s.cfg ch (s.ring ch) = q.map some := h (by omega)
  have hroom : ((s.ring ch).w - (s.ring ch).r).toNat < capOf s.cfg ch := by
    rw [← unread_length s.cfg, hq, List.length_map]
    omega
  rw [storeSample_cfg, storeSample, State.setRing_ring_same, storeSlot, unread_store hroom, hq, List.map_append]
  rfl

/-- The ports' side is no part of the queue. -/
theorem HoldsQueue.congr {s t : State} {q : List Sample} (h : HoldsQueue ch s q) (hcfg : t.cfg = s.cfg) (hring : t.ring ch = s.ring ch) :
    HoldsQueue ch t q := by
  rwa [HoldsQueue, hcfg, hring]

/-- R63: a ring drained in time answers as the queue it holds. -/
theorem perform_answers_fifo (ops : List RingOp) {q : List Sample} {s : State} (hq : HoldsQueue ch s q)
    (hdrained : drainedInTime (capOf s.cfg ch) q.length ops) :
    ∃ t, perform (ops.map (RingOp.command ch)) s = .next t ∧ t.responses = (fifoAnswers q ops).reverse ++ s.responses := by
  induction ops generalizing q s with
  | nil => exact ⟨s, rfl, rfl⟩
  | cons op ops ih =>
    cases op with
    | push d =>
      have hpresent : HoldsQueue ch (s.present .producer s.pending) q := hq.congr rfl (by simp)
      obtain ⟨t, ht, hresp⟩ := ih (s := (storeSample ch d (s.present .producer s.pending)).respond .ok 0 0)
        ((hpresent.store d).congr rfl (by simp)) (by simpa [drainedInTime] using hdrained)
      exact ⟨t, (perform_push d _ s).trans ht, by simpa [fifoAnswers] using hresp⟩
    | pop =>
      obtain ⟨hfits, hdrained⟩ := hdrained
      have hunread := hq hfits
      cases q with
      | nil =>
        obtain ⟨t, ht, hresp⟩ := ih (s := (s.present .consumer s.pending).respond .empty 0 0) (hq.congr rfl (by simp)) hdrained
        exact ⟨t, (perform_pop_empty (eq_of_unread_eq_nil hunread) _).trans ht, by simpa [fifoAnswers] using hresp⟩
      | cons d q =>
        obtain ⟨u, hu, hcfg, hanswer, hrest⟩ := perform_pop hunread (ops.map (RingOp.command ch))
        obtain ⟨t, ht, hresp⟩ := ih (q := q) (fun _ => hrest) (hcfg.symm ▸ hdrained)
        exact ⟨t, hu.trans ht, by simpa [fifoAnswers, hanswer] using hresp⟩

/-- Settles O27: an empty ring holds the empty queue. -/
theorem ringIsFifoWhileDrained : Obligations.RingIsFifoWhileDrained := by
  intro ch ops s hempty hdrained
  exact perform_answers_fifo ops (q := []) (fun _ => unread_of_eq hempty) hdrained

/-! ### After an overflow -/

section
variable {n cap k : Nat}

theorem latestIndex_lt (hk : k < n) : latestIndex n cap k < n := by
  have := Nat.div_mul_le_self (n - 1 - k) cap
  rw [latestIndex]
  omega

/-- R64: index `n` is the latest of its own slot once it is stored. -/
theorem latestIndex_succ_of_modEq (hk : k ≤ n) (h : k ≡ n [MOD cap]) : latestIndex (n + 1) cap k = n := by
  rw [latestIndex, Nat.add_sub_cancel, Nat.div_mul_cancel ((Nat.modEq_iff_dvd' hk).mp h), Nat.add_sub_of_le hk]

/-- R64: it leaves the latest index of every other slot. -/
theorem latestIndex_succ_of_not_modEq (hk : k < n) (h : ¬ k ≡ n [MOD cap]) : latestIndex (n + 1) cap k = latestIndex n cap k := by
  have hdvd : ¬ cap ∣ n - 1 - k + 1 := by
    rw [show n - 1 - k + 1 = n - k by omega]
    exact mt (Nat.modEq_iff_dvd' hk.le).mpr h
  rw [latestIndex, latestIndex, show n + 1 - 1 - k = n - 1 - k + 1 by omega, Nat.succ_div_of_not_dvd hdvd]

/-- R51: two indices counted from the same one select the same slot where they agree modulo the capacity. -/
theorem slotOf_add_eq_iff {cfg : Params} {m : Word} {j : Nat} :
    slotOf cfg ch (m + BitVec.ofNat 32 k) = slotOf cfg ch (m + BitVec.ofNat 32 j) ↔ k ≡ j [MOD capOf cfg ch] := by
  rw [slotOf_add, slotOf_add]
  exact ⟨Nat.ModEq.add_left_cancel' _, Nat.ModEq.add_left _⟩

end

/-- R64: every slot of the samples `ds` stored from write index `w` on holds the latest of them. -/
def HoldsLatest (cfg : Params) (ch : Channel) (m : Memory) (w : Word) (ds : List Sample) : Prop :=
  ∀ k, k < ds.length →
    Memory.read m (slotOf cfg ch (w + BitVec.ofNat 32 k)) = some (ds.getD (latestIndex ds.length (capOf cfg ch) k) 0)

/-- R64: one more sample is the latest of its slot, and no other slot changes. -/
theorem HoldsLatest.write {cfg : Params} {m : Memory} {w : Word} {ds : List Sample} (h : HoldsLatest cfg ch m w ds) (d : Sample) :
    HoldsLatest cfg ch (Memory.write m (slotOf cfg ch (w + BitVec.ofNat 32 ds.length)) d) w (ds ++ [d]) := by
  intro k hk
  rw [List.length_append, List.length_singleton] at hk ⊢
  by_cases hmod : k ≡ ds.length [MOD capOf cfg ch]
  · rw [slotOf_add_eq_iff.mpr hmod, Memory.read_write_same, latestIndex_succ_of_modEq (by omega) hmod]
    simp
  · have hlt : k < ds.length := lt_of_le_of_ne (by omega) fun he => hmod (he ▸ Nat.ModEq.rfl)
    rw [Memory.read_write_other _ _ (mt slotOf_add_eq_iff.mp hmod), h k hlt, latestIndex_succ_of_not_modEq hlt hmod,
      List.getD_append _ _ _ _ (latestIndex_lt hlt)]

/-- R64, R154: a run of PUSHes, however long, completes; `R` is kept, `W` counts the samples, and every slot holds its latest. -/
theorem perform_pushes (ch : Channel) (ds : List Sample) (s : State) :
    ∃ t, perform (ds.map fun d => (.producer, .push ch d)) s = .next t ∧ t.cfg = s.cfg ∧ (t.ring ch).r = (s.ring ch).r ∧
      (t.ring ch).w = (s.ring ch).w + BitVec.ofNat 32 ds.length ∧ HoldsLatest s.cfg ch (t.ring ch).slots (s.ring ch).w ds := by
  induction ds using List.reverseRecOn with
  | nil => exact ⟨s, rfl, rfl, rfl, by simp, fun k hk => absurd hk (Nat.not_lt_zero k)⟩
  | append_singleton ds d ih =>
    obtain ⟨t, ht, hcfg, hr, hw, hlatest⟩ := ih
    refine ⟨(storeSample ch d (t.present .producer t.pending)).respond .ok 0 0, ?_, by simpa using hcfg, by simpa using hr, ?_, ?_⟩
    · rw [List.map_append, perform_append_next ht]
      exact perform_push d [] t
    · simp [hw, BitVec.ofNat_add, BitVec.add_assoc]
    · simpa [storeSlot, hcfg, hw] using hlatest.write d

/-- R64: what a run of PUSHes onto an empty ring leaves unread, as long as the count does not wrap. -/
theorem unread_of_holdsLatest {cfg : Params} {q : Ring} {ds : List Sample} (hw : q.w = q.r + BitVec.ofNat 32 ds.length)
    (hlen : ds.length < 2 ^ 32) (h : HoldsLatest cfg ch q.slots q.r ds) :
    unread cfg ch q = ((List.range ds.length).map fun k => ds.getD (latestIndex ds.length (capOf cfg ch) k) 0).map some := by
  have hcount : (q.w - q.r).toNat = ds.length := by
    rw [hw, add_sub_cancel_left, BitVec.toNat_ofNat, Nat.mod_eq_of_lt hlen]
  rw [unread, hcount, List.map_map]
  exact List.map_congr_left fun k hk => h k (List.mem_range.mp hk)

/-- R160: of the unread samples, the POP after `k` others takes the one of index `k`. -/
theorem perform_pops {q : List Sample} {k : Nat} {s : State} (hq : unread s.cfg ch (s.ring ch) = q.map some) (hk : k < q.length) :
    ∃ t, perform (List.replicate (k + 1) (.consumer, .pop ch)) s = .next t ∧
      t.responses.head? = some (.consumer, ⟨.ok, zext32 q[k], 0⟩) := by
  induction k generalizing q s with
  | zero =>
    cases q with
    | nil => exact absurd hk (Nat.not_lt_zero 0)
    | cons d q =>
      obtain ⟨t, ht, _, hanswer, _⟩ := perform_pop hq []
      exact ⟨t, ht, by simp [hanswer]⟩
  | succ k ih =>
    cases q with
    | nil => exact absurd hk (Nat.not_lt_zero _)
    | cons d q =>
      obtain ⟨u, hu, _, _, hrest⟩ := perform_pop hq (List.replicate (k + 1) (.consumer, .pop ch))
      obtain ⟨t, ht, hhead⟩ := ih hrest (Nat.lt_of_succ_lt_succ hk)
      exact ⟨t, hu.trans ht, hhead⟩

/-- Settles O28: the PUSHes leave the latest sample of each slot, and the POPs take them in the order of the indices. -/
theorem overflowPopsLatestOfSlot : Obligations.OverflowPopsLatestOfSlot := by
  intro ch ds k s hempty hlen hk
  obtain ⟨t, ht, hcfg, hr, hw, hlatest⟩ := perform_pushes ch ds s
  rw [← hempty, ← hr] at hw hlatest
  obtain ⟨u, hu, hhead⟩ := perform_pops (unread_of_holdsLatest hw hlen (hcfg ▸ hlatest)) (k := k) (by simpa using hk)
  refine ⟨u, (perform_append_next ht).trans hu, ?_⟩
  simpa [hcfg] using hhead

end Sys2Proof.Machine
end

section
/-! PROOFS. DHT22: feeding and clearing the frame buffer, reading one field of it, and the decode as its checks in order
(43_dht22.md R180 to R189). -/
namespace Sys2Proof.Machine

/-! ### DHT_FEED and DHT_CLEAR -/

section
variable {s : State} (hp : s.port = .consumer)
include hp

/-- R180: DHT_FEED stores where there is room and answers the new count. -/
theorem exec_dhtFeed (d : Sample) :
    exec (.dhtFeed d) s = .next ((s.setDht ⟨feedEntry s.dht d, nextCount s.dht.fn⟩).respond .ok (BitVec.ofNat 32 (nextCount s.dht.fn)) 0) :=
  onPort_here hp _

/-- R181: DHT_CLEAR clears the count and answers OK. -/
theorem exec_dhtClear : exec .dhtClear s = .next ((clearCount s).respond .ok 0 0) := onPort_here hp _

/-- R181, R184: what every DHT22 command but DHT_FEED leaves: the count at 0, one response, all else kept. -/
theorem clearCount_respond (st : Status) (a b : Word) :
    (clearCount s).respond st a b = { s with dht := ⟨s.dht.fb, 0⟩, responses := (.consumer, ⟨st, a, b⟩) :: s.responses } :=
  State.respond_of_port (s := clearCount s) hp st a b

end

/-- R180: with room the duration goes into the entry of the count. -/
theorem feedEntry_read_count {q : Dht} (h : q.fn < frameLength) (d : Sample) : Memory.read (feedEntry q d) q.fn = some d := by
  rw [feedEntry, if_pos h, Memory.read_write_same]

/-- R180: with room every other entry is kept, without room every entry is. -/
theorem feedEntry_read_other {q : Dht} {j : Nat} (h : q.fn < frameLength → j ≠ q.fn) (d : Sample) :
    Memory.read (feedEntry q d) j = Memory.read q.fb j := by
  rw [feedEntry]
  split
  · next hroom => exact Memory.read_write_other _ _ (h hroom)
  · rfl

/-- Settles O37: the entry of the count is written where there is room, and DHT_FEED updates nothing but the decoder. -/
theorem dhtFeedAppendsAndCounts : Obligations.DhtFeedAppendsAndCounts := by
  intro d s hp
  refine ⟨_, exec_dhtFeed hp d, rfl, fun hroom => feedEntry_read_count hroom d, fun j hj => feedEntry_read_other hj d, ?_⟩
  simp [hp, nextCount]

/-! ### Reading a field -/

/-- R54: above the bit shifted in stand the older bits, one place up. -/
theorem shiftIn_getLsbD_succ {n i : Nat} (hi : i + 1 < n) (acc : BitVec n) (b : Bool) :
    (shiftIn acc b).getLsbD (i + 1) = acc.getLsbD i := by
  simp [shiftIn, hi, BitVec.getLsbD_eq_getElem (show i < n by omega)]

/-- R186: the bits shifted in stand in the accumulator with the last of them at bit 0. -/
theorem shiftAll_getLsbD {n i : Nat} (acc : BitVec n) {bits : List Bool} (hn : i < n) (hi : i < bits.length) :
    (shiftAll acc bits).getLsbD i = bits.reverse[i]'(by simpa using hi) := by
  induction bits using List.reverseRecOn generalizing i with
  | nil => exact absurd hi (Nat.not_lt_zero i)
  | append_singleton bits b ih =>
    have hstep : shiftAll acc (bits ++ [b]) = shiftIn (shiftAll acc bits) b := List.foldl_concat ..
    rw [hstep]
    cases i with
    | zero => simpa using shiftIn_getLsbD_zero hn _ b
    | succ i => simpa [shiftIn_getLsbD_succ hn] using ih (by omega) (by simpa using hi)

/-- R186: the bits of a value shifted in, most significant first, are the value. -/
theorem shiftAll_msb_first {n : Nat} {v : BitVec n} {bits : List Bool} (hlen : bits.length = n)
    (hbits : ∀ i, i < n → bits[i]? = some (v.getMsbD i)) (acc : BitVec n) : shiftAll acc bits = v := by
  refine BitVec.eq_of_getLsbD_eq fun i hi => ?_
  have hmsb := hbits (n - 1 - i) (by omega)
  rw [List.getElem?_eq_getElem (by omega), Option.some.injEq, BitVec.getMsbD_eq_getLsbD] at hmsb
  rw [shiftAll_getLsbD acc hi (by omega), List.getElem_reverse]
  subst hlen
  simpa [show bits.length - 1 - (bits.length - 1 - i) = i by omega, show bits.length - 1 - i < bits.length by omega] using hmsb

section
variable {fb : Memory} {first count n : Nat}

/-- R186: a field whose entries carry a value reads as that value. -/
theorem readField_of_carriesBits {v : BitVec n} (h : CarriesBits fb first v) (acc : BitVec n) :
    readField fb first n acc = .bits v := by
  rcases readField_cases fb first n acc with ⟨i, hi, hnone, _⟩ | ⟨i, d, hi, hread, hclass, _⟩ | ⟨bits, hlen, hbits, he⟩
  · obtain ⟨d, hd, _⟩ := h i hi
    cases hnone.symm.trans hd
  · obtain ⟨d', hd, hc⟩ := h i hi
    cases hread.symm.trans hd
    cases hclass.symm.trans hc
  · rw [he, shiftAll_msb_first hlen fun i hi => ?_]
    obtain ⟨d, hd, hc⟩ := h i hi
    obtain ⟨d', hd', hc'⟩ := hbits i hi
    cases hd'.symm.trans hd
    exact hc'.symm.trans hc

/-- R272, U2: reading a field whose entries have all been written meets none that was not. -/
theorem readField_of_written (h : ∀ i, i < count → (Memory.read fb (first + i)).isSome) (acc : BitVec n) :
    readField fb first count acc = .invalid ∨ ∃ v, readField fb first count acc = .bits v := by
  rcases readField_cases fb first count acc with ⟨i, hi, hnone, _⟩ | ⟨_, _, _, _, _, he⟩ | ⟨_, _, _, he⟩
  · simpa [hnone] using h i hi
  · exact .inl he
  · exact .inr ⟨_, he⟩

/-- R184: a field with a duration in neither window fails. -/
theorem readField_of_holdsInvalid (h : HoldsInvalid fb first count) (acc : BitVec n) : readField fb first count acc = .invalid := by
  obtain ⟨hwritten, i, d, hi, hread, hclass⟩ := h
  rcases readField_cases fb first count acc with ⟨j, hj, hnone, _⟩ | ⟨_, _, _, _, _, he⟩ | ⟨bits, hlen, hbits, _⟩
  · simpa [hnone] using hwritten j hj
  · exact he
  · obtain ⟨d', hread', hclass'⟩ := hbits i hi
    cases hread'.symm.trans hread
    rw [hclass, List.getElem?_eq_getElem (by omega)] at hclass'
    cases hclass'

end

/-! ### DHT_DECODE, one equation per outcome -/

section
variable {s : State} (hp : s.port = .consumer)
include hp

/-- R184: a frame of another length fails before anything is classified. -/
theorem exec_dhtDecode_length (hfn : s.dht.fn ≠ frameLength) : exec .dhtDecode s = .next ((clearCount s).respond .lengthError 0 0) := by
  rw [exec, execDhtDecode, onPort_here hp, if_pos hfn]

variable (hfn : s.dht.fn = frameLength)
include hfn

/-- R185: humidity is the first field looked at. -/
theorem exec_dhtDecode_hum (hhum : readField s.dht.fb 3 16 (0 : BitVec 16) = .invalid) :
    exec .dhtDecode s = .next ((clearCount s).respond .classErrorHum 0 0) := by
  rw [exec, execDhtDecode, onPort_here hp, if_neg (not_not.mpr hfn), hhum]

variable {h : BitVec 16} (hhum : readField s.dht.fb 3 16 (0 : BitVec 16) = .bits h)
include hhum

/-- R185: temperature is the second. -/
theorem exec_dhtDecode_temp (htemp : readField s.dht.fb 19 16 (0 : BitVec 16) = .invalid) :
    exec .dhtDecode s = .next ((clearCount s).respond .classErrorTemp 0 0) := by
  simp only [exec, execDhtDecode, onPort_here hp, if_neg (not_not.mpr hfn), hhum, htemp]

variable {t : BitVec 16} (htemp : readField s.dht.fb 19 16 (0 : BitVec 16) = .bits t)
include htemp

/-- R185: the checksum field is the last. -/
theorem exec_dhtDecode_cks (hcks : readField s.dht.fb 35 8 (0 : Byte) = .invalid) :
    exec .dhtDecode s = .next ((clearCount s).respond .classErrorCks 0 0) := by
  simp only [exec, execDhtDecode, onPort_here hp, if_neg (not_not.mpr hfn), hhum, htemp, hcks]

/-- R186, R187: where every field is read, the byte sum decides. -/
theorem exec_dhtDecode_frame {k : Byte} (hcks : readField s.dht.fb 35 8 (0 : Byte) = .bits k) :
    exec .dhtDecode s = .next (finishFrame h t k (clearCount s)) := by
  simp only [exec, execDhtDecode, onPort_here hp, if_neg (not_not.mpr hfn), hhum, htemp, hcks]

end

/-- R187: the last check only responds. -/
theorem finishFrame_eq {s : State} {p : Port} (hp : s.port = p) (h t : BitVec 16) (k : Byte) :
    finishFrame h t k s = { s with
      responses := (p, if k = dhtSum h t then ⟨.ok, zext32 h, zext32 t⟩ else ⟨.checksumError, 0, 0⟩) :: s.responses } := by
  rw [finishFrame]
  split <;> exact State.respond_of_port hp _ _ _

/-- Settles O38: DHT_CLEAR, and the first check of DHT_DECODE. -/
theorem dhtClearAndLengthCheck : Obligations.DhtClearAndLengthCheck := by
  intro s hp
  refine ⟨?_, fun hfn => ?_⟩
  · rw [exec_dhtClear hp, clearCount_respond hp]
  · rw [exec_dhtDecode_length hp hfn, clearCount_respond hp]

/-- Settles O39: each field reads as the value it carries, and the byte sum is written out. -/
theorem dhtDecodeReadsTheFrame : Obligations.DhtDecodeReadsTheFrame := by
  intro s h t k hp hfn hhum htemp hcks
  rw [exec_dhtDecode_frame hp hfn (readField_of_carriesBits hhum 0) (readField_of_carriesBits htemp 0) (readField_of_carriesBits hcks 0),
    finishFrame_eq (s := clearCount s) hp]
  rfl

/-- Settles O40: the fields before the failing one read as values, the failing one fails, and the equation of its outcome asks nothing of the
later ones. -/
theorem dhtFirstFailingFieldDecides : Obligations.DhtFirstFailingFieldDecides := by
  intro s h t hp hfn
  refine ⟨fun hbad => ?_, fun hhum hbad => ?_, fun hhum htemp hbad => ?_⟩ <;> rw [← clearCount_respond hp]
  · exact exec_dhtDecode_hum hp hfn (readField_of_holdsInvalid hbad 0)
  · exact exec_dhtDecode_temp hp hfn (readField_of_carriesBits hhum 0) (readField_of_holdsInvalid hbad 0)
  · exact exec_dhtDecode_cks hp hfn (readField_of_carriesBits hhum 0) (readField_of_carriesBits htemp 0) (readField_of_holdsInvalid hbad 0)

/-- U2: the entries a whole frame's count speaks of have been written, so every field is read or fails, and DHT_DECODE completes. -/
theorem exec_dhtDecode_completes {s : State} (hs : DhtInv s.dht) (hp : s.port = .consumer) : ∃ t, exec .dhtDecode s = .next t := by
  by_cases hfn : s.dht.fn = frameLength
  · have hwritten : ∀ i, i < 43 → (Memory.read s.dht.fb i).isSome := fun i hi => hs.fed i (by rw [hfn]; exact hi)
    rcases readField_of_written (count := 16) (fun i hi => hwritten (3 + i) (by omega)) (0 : BitVec 16) with hhum | ⟨h, hhum⟩
    · exact ⟨_, exec_dhtDecode_hum hp hfn hhum⟩
    rcases readField_of_written (count := 16) (fun i hi => hwritten (19 + i) (by omega)) (0 : BitVec 16) with htemp | ⟨t, htemp⟩
    · exact ⟨_, exec_dhtDecode_temp hp hfn hhum htemp⟩
    rcases readField_of_written (count := 8) (fun i hi => hwritten (35 + i) (by omega)) (0 : Byte) with hcks | ⟨k, hcks⟩
    · exact ⟨_, exec_dhtDecode_cks hp hfn hhum htemp hcks⟩
    · exact ⟨_, exec_dhtDecode_frame hp hfn hhum htemp hcks⟩
  · exact ⟨_, exec_dhtDecode_length hp hfn⟩

/-- Settles O41: DHT_DECODE completes, and where it completes it clears the count and responds. -/
theorem dhtDecodeCompletesUnderInvariant : Obligations.DhtDecodeCompletesUnderInvariant := by
  intro s hs hp
  obtain ⟨u, hu⟩ := exec_dhtDecode_completes hs.dht hp
  obtain ⟨st, a, b, _, rfl⟩ := execDhtDecode_cases hp hu
  exact ⟨⟨st, a, b⟩, by rw [hu, clearCount_respond hp]⟩

end Sys2Proof.Machine
end

section
/-! PROOFS. LaCrosse: one pulse by the state it arrives at, then the pulses of a whole frame (44_lacrosse.md R210 to R222). -/
namespace Sys2Proof.Machine

/-! ### RADIO_PULSE, one equation per state -/

section
variable {s : State} {d : Sample} (hp : s.port = .consumer)
include hp

/-- R210: what every branch of RADIO_PULSE leaves: the decoder and one response, all else kept. -/
theorem setLacrosse_respond (l : Lacrosse) (st : Status) (a b : Word) :
    (s.setLacrosse l).respond st a b = { s with lacrosse := l, responses := (.consumer, ⟨st, a, b⟩) :: s.responses } :=
  State.respond_of_port (s := s.setLacrosse l) hp st a b

/-- R211: in states 0 to 2 the pulse is one of the preamble. -/
theorem exec_radioPulse_preamble (h : s.lacrosse.rs < 3) : exec (.radioPulse d) s = .next (preamblePulse d s) := by
  rw [exec, execRadioPulse, onPort_here hp, if_pos h]

/-- R212: in state 3 the pulse is the first bit. -/
theorem exec_radioPulse_firstBit (h : s.lacrosse.rs = 3) : exec (.radioPulse d) s = .next (firstBitPulse d s) := by
  rw [exec, execRadioPulse, onPort_here hp, if_neg (by omega), if_pos h]

/-- R214: in the body a duration of neither window resets and leaves the accumulator. -/
theorem exec_radioPulse_miss (h4 : 4 ≤ s.lacrosse.rs) (hb : bodyBit s.lacrosse.rb d = none) :
    exec (.radioPulse d) s = .next ((s.setLacrosse ⟨0, false, s.lacrosse.rreg⟩).respond .radioClassError 0 0) := by
  rw [exec, execRadioPulse, onPort_here hp, if_neg (by omega), if_neg (by omega), hb]

/-- R215: in the body a duration of either window is a bit. -/
theorem exec_radioPulse_bit {nb : Bool} (h4 : 4 ≤ s.lacrosse.rs) (hb : bodyBit s.lacrosse.rb d = some nb) :
    exec (.radioPulse d) s = .next (bodyPulse nb s) := by
  rw [exec, execRadioPulse, onPort_here hp, if_neg (by omega), if_neg (by omega), hb]

/-- R218: what the completion step leaves, the checksum of the frame deciding the response. -/
theorem setLacrosse_completeFrame (l : Lacrosse) (reg : Frame) :
    completeFrame reg (s.setLacrosse l) = { s with
      lacrosse := l
      responses := (.consumer, if frameChecksum reg = checksumOf s.cfg (framePayload reg) then ⟨.ok, framePayload reg, 0⟩
        else ⟨.radioChecksumError, 0, 0⟩) :: s.responses } := by
  rw [completeFrame, State.setLacrosse_cfg]
  split <;> exact setLacrosse_respond hp _ _ _ _

/-- R218: in state 42 a duration of either window completes the frame. -/
theorem exec_radioPulse_last {nb : Bool} (h : s.lacrosse.rs = 42) (hb : bodyBit s.lacrosse.rb d = some nb) :
    exec (.radioPulse d) s =
      .next (completeFrame (shiftIn s.lacrosse.rreg nb) (s.setLacrosse ⟨0, nb, shiftIn s.lacrosse.rreg nb⟩)) := by
  rw [exec_radioPulse_bit hp (by omega) hb, bodyPulse, if_pos (by omega)]

/-- R218, R222: a pulse completes a frame in state 42 only; every other answers NO_FRAME or RADIO_CLASS_ERROR with nothing in its fields. -/
theorem exec_radioPulse_cases (d : Sample) :
    (∃ l st, PulseStep s.lacrosse l ∧ (st = .noFrame ∨ st = .radioClassError) ∧
      exec (.radioPulse d) s = .next ((s.setLacrosse l).respond st 0 0)) ∨
    (∃ nb, s.lacrosse.rs = 42 ∧ exec (.radioPulse d) s =
      .next (completeFrame (shiftIn s.lacrosse.rreg nb) (s.setLacrosse ⟨0, nb, shiftIn s.lacrosse.rreg nb⟩))) := by
  rcases (by omega : s.lacrosse.rs < 3 ∨ s.lacrosse.rs = 3 ∨ 4 ≤ s.lacrosse.rs) with h | h | h
  · rw [exec_radioPulse_preamble hp h, preamblePulse]
    split
    · exact .inl ⟨_, _, .sync h, .inl rfl, rfl⟩
    · exact .inl ⟨_, _, .lost h, .inr rfl, rfl⟩
  · rw [exec_radioPulse_firstBit hp h, firstBitPulse]
    split
    · exact .inl ⟨_, _, .seed h, .inl rfl, rfl⟩
    · exact .inl ⟨_, _, .miss h.ge, .inr rfl, rfl⟩
  · cases hb : bodyBit s.lacrosse.rb d with
    | none => exact .inl ⟨_, _, .miss (by omega), .inr rfl, exec_radioPulse_miss hp h hb⟩
    | some nb =>
      rw [exec_radioPulse_bit hp h hb, bodyPulse]
      split
      · next h43 => exact .inr ⟨nb, Nat.succ.inj h43, rfl⟩
      · next h43 => exact .inl ⟨_, _, .shift h h43 nb, .inl rfl, rfl⟩

end

/-- R213: the window of a 0, by the bit before it. -/
theorem bodyBit_eq_zero_iff {prev : Bool} {d : Sample} :
    bodyBit prev d = some false ↔ (if prev then 400 else 600) < d.toNat ∧ d.toNat < (if prev then 600 else 800) := by
  cases prev <;> simp [bodyBit, inWindow_iff]

/-- The second of two conditions that exclude each other is the one met where the answer is 1. -/
theorem ite_eq_some_true_iff {p q : Prop} [Decidable p] [Decidable q] (h : q → ¬ p) :
    (if p then some false else if q then some true else none) = some true ↔ q := by
  by_cases hq : q
  · simp [hq, h hq]
  · by_cases hp : p <;> simp [hp, hq]

/-- R213: the window of a 1, by the bit before it; it begins where the window of a 0 ends. -/
theorem bodyBit_eq_one_iff {prev : Bool} {d : Sample} :
    bodyBit prev d = some true ↔ (if prev then 600 else 800) < d.toNat ∧ d.toNat < (if prev then 800 else 1000) := by
  cases prev <;> simp only [bodyBit, inWindow_iff, Bool.false_eq_true, if_false, if_true]
  · exact ite_eq_some_true_iff fun hone hzero => absurd hone.1 hzero.2.asymm
  · exact ite_eq_some_true_iff fun hone hzero => absurd hone.1 hzero.2.asymm

/-- R54: a 0 shifted in is the shift alone. -/
theorem shiftIn_false {n : Nat} (acc : BitVec n) : shiftIn acc false = acc <<< 1 := by simp [shiftIn]

/-- R54: a 1 shifted in sets bit 0. -/
theorem shiftIn_true (acc : Frame) : shiftIn acc true = acc <<< 1 ||| 1 := rfl

/-- Settles O42: the preamble pulse, its window written out. -/
theorem radioPreambleCountsLongSync : Obligations.RadioPreambleCountsLongSync := by
  intro d s hp h
  rw [exec_radioPulse_preamble hp (Nat.lt_succ_of_le h), preamblePulse, setLacrosse_respond hp, setLacrosse_respond hp]
  simp only [isLongSync_iff]

/-- Settles O43: the first-bit pulse, its window written out. -/
theorem radioFirstBitSeeds : Obligations.RadioFirstBitSeeds := by
  intro d s hp h
  rw [exec_radioPulse_firstBit hp h, firstBitPulse, setLacrosse_respond hp, setLacrosse_respond hp]
  simp only [isFirstBit_iff]

/-- Settles O44: the two windows of the previous bit, then neither. -/
theorem radioBodyDecodesByPreviousBit : Obligations.RadioBodyDecodesByPreviousBit := by
  intro d s hp h4 h41
  cases hb : bodyBit s.lacrosse.rb d with
  | none =>
    rw [if_neg (mt bodyBit_eq_zero_iff.mpr (by simp [hb])), if_neg (mt bodyBit_eq_one_iff.mpr (by simp [hb])),
      exec_radioPulse_miss hp h4 hb, setLacrosse_respond hp]
  | some nb =>
    rw [exec, execRadioPulse_body hp h4 (by omega) hb, setLacrosse_respond hp]
    cases nb with
    | false => rw [if_pos (bodyBit_eq_zero_iff.mp hb), shiftIn_false]
    | true => rw [if_neg (mt bodyBit_eq_zero_iff.mpr (by simp [hb])), if_pos (bodyBit_eq_one_iff.mp hb), shiftIn_true]

/-- Settles O45: the miss, and the bit that completes the frame. -/
theorem radioLastBitCompletesFrame : Obligations.RadioLastBitCompletesFrame := by
  intro d s hp h
  cases hb : bodyBit s.lacrosse.rb d with
  | none => rw [exec_radioPulse_miss hp (by omega) hb, setLacrosse_respond hp]
  | some nb =>
    rw [exec_radioPulse_last hp h hb, setLacrosse_completeFrame hp]
    rfl

/-! ### A frame is completed in state 42 and begins with a 1 -/

/-- R210: a pulse moves `RS` on by at most one. -/
theorem PulseStep.rs_le {l l' : Lacrosse} (h : PulseStep l l') : l'.rs ≤ l.rs + 1 := by
  cases h with
  | sync _ | shift _ _ _ => exact le_rfl
  | lost _ | miss _ | complete _ _ => exact Nat.zero_le _
  | seed h => exact h ▸ le_rfl

/-- R222: pulses too few to take `RS` to 43 complete no frame. -/
theorem perform_radioPulses_noFrame (ds : List Sample) {s : State} (h : s.lacrosse.rs + ds.length ≤ 42) :
    ∃ (t : State) (answers : List (Port × Response)), perform (radioPulses ds) s = .next t ∧
      t.responses = answers ++ s.responses ∧ answers.length = ds.length ∧
      ∀ a ∈ answers, a.2.status = .noFrame ∨ a.2.status = .radioClassError := by
  induction ds generalizing s with
  | nil => exact ⟨s, [], rfl, rfl, rfl, by simp⟩
  | cons d ds ih =>
    rw [List.length_cons] at h
    rcases exec_radioPulse_cases (s := s.present .consumer s.pending) rfl d with ⟨l, st, hstep, hst, he⟩ | ⟨_, h42, _⟩
    · have hrs : l.rs ≤ s.lacrosse.rs + 1 := hstep.rs_le
      obtain ⟨t, answers, ht, hresp, hlen, hall⟩ :=
        ih (s := ((s.present .consumer s.pending).setLacrosse l).respond st 0 0)
          (by simp only [State.respond_lacrosse, State.setLacrosse_lacrosse]; omega)
      refine ⟨t, answers ++ [(.consumer, ⟨st, 0, 0⟩)], (perform_cons_next he _).trans ht, by simpa using hresp, by simp [hlen], ?_⟩
      rw [List.forall_mem_append, List.forall_mem_singleton]
      exact ⟨hall, hst⟩
    · have : s.lacrosse.rs = 42 := h42
      omega

/-- Settles O49: from `RS = 0`, 42 pulses are too few. -/
theorem noFrameWithinFortyTwoPulses : Obligations.NoFrameWithinFortyTwoPulses := by
  intro ds s h0 hlen
  exact perform_radioPulses_noFrame ds (by omega)

/-- R217: in state 42 the leading 1 is in bit 38. -/
theorem LacrosseInv.rreg_leading_one {l : Lacrosse} (h : LacrosseInv l) (h42 : l.rs = 42) : l.rreg.getLsbD 38 = true := by
  have hone := h.seeded (by omega)
  rw [h42] at hone
  rw [BitVec.getLsbD, Nat.testBit_eq_decide_div_mod_eq, hone]
  rfl

/-- R217: bit 31 of the payload of a frame is bit 39 of the frame. -/
theorem framePayload_getLsbD_top (f : Frame) : (framePayload f).getLsbD 31 = f.getLsbD 39 := by
  simp [framePayload]

/-- Settles O50: OK is the answer in state 42 only, where the last bit takes the leading 1 to bit 39 of the frame. -/
theorem returnedPayloadHasTopBit : Obligations.ReturnedPayloadHasTopBit := by
  intro d s t r0 hs hp ht hresp
  rcases exec_radioPulse_cases hp d with ⟨l, st, _, hst, he⟩ | ⟨nb, h42, he⟩
  · cases he.symm.trans ht
    rcases hst with rfl | rfl <;> simp at hresp
  · rw [setLacrosse_completeFrame hp] at he
    cases he.symm.trans ht
    obtain ⟨hanswer, _⟩ := List.cons.inj hresp
    split at hanswer
    · cases hanswer
      rw [framePayload_getLsbD_top, shiftIn_getLsbD_succ (by decide)]
      exact hs.lacrosse.rreg_leading_one h42
    · cases hanswer

/-! ### The pulses of a frame -/

/-- The decoder after `n` of the pulses of the frame `f`: in the preamble only `RS` counts, in the body the bits of `f` so far stand in the
accumulator (R211, R212, R215). -/
def frameProgress (l : Lacrosse) (f : Frame) (n : Nat) : Lacrosse :=
  if n ≤ 3 then { l with rs := n } else ⟨n, f.getLsbD (43 - n), f >>> (43 - n)⟩

theorem frameProgress_preamble {n : Nat} (h : n ≤ 3) (l : Lacrosse) (f : Frame) : frameProgress l f n = { l with rs := n } := if_pos h

theorem frameProgress_body {n : Nat} (h : 4 ≤ n) (l : Lacrosse) (f : Frame) :
    frameProgress l f n = ⟨n, f.getLsbD (43 - n), f >>> (43 - n)⟩ := if_neg (by omega)

/-- R54: the upper bits of a value with the next lower bit shifted in. -/
theorem shiftIn_ushiftRight_succ (f : Frame) (k : Nat) : shiftIn (f >>> (k + 1)) (f.getLsbD k) = f >>> k := by
  refine BitVec.eq_of_getLsbD_eq fun i hi => ?_
  cases i with
  | zero => rw [shiftIn_getLsbD_zero (by decide), BitVec.getLsbD_ushiftRight, Nat.add_zero]
  | succ i => rw [shiftIn_getLsbD_succ hi, BitVec.getLsbD_ushiftRight, BitVec.getLsbD_ushiftRight, Nat.add_assoc, Nat.add_comm 1]

/-- R212: above the lower 39 bits of a frame whose top bit is set stands what the first bit seeds. -/
theorem ushiftRight_of_top_bit {f : Frame} (h : f.getLsbD 39 = true) : f >>> 39 = 1 := by
  rw [← shiftIn_ushiftRight_succ, h, BitVec.ushiftRight_eq_zero (by decide)]
  rfl

/-- R60: a run of pulses goes on with the next one. -/
theorem perform_take_succ {ds : List Sample} {n : Nat} {s t u : State} (hn : n < ds.length)
    (ht : perform (radioPulses (ds.take n)) s = .next t) (hu : exec (.radioPulse (ds.getD n 0)) { t with port := .consumer } = .next u) :
    perform (radioPulses (ds.take (n + 1))) s = .next u := by
  rw [List.take_succ_eq_append_getElem hn, radioPulses, List.map_append]
  rw [List.getD_eq_getElem _ _ hn] at hu
  exact (perform_append_next ht).trans (perform_cons_next hu [])

/-- R60: pulses come on the consumer port, whatever port the state is on. -/
theorem perform_radioPulses_present {ds : List Sample} (h : ds ≠ []) (s : State) :
    perform (radioPulses ds) s = perform (radioPulses ds) (s.present .consumer s.pending) := by
  cases ds with
  | nil => exact absurd rfl h
  | cons d ds => rfl

section
variable {f : Frame} {ds : List Sample} (hf : CarriesFrame f ds)
include hf

/-- R213, R215, R216: in the body the next pulse of a frame is its next lower bit, and shifting it in gives one more bit of the frame. -/
theorem CarriesFrame.body_pulse {n : Nat} {l q : Lacrosse} (h4 : 4 ≤ n) (hn : n < 43) (hq : q = frameProgress l f n) :
    q.rs = n ∧ bodyBit q.rb (ds.getD n 0) = some (f.getLsbD (42 - n)) ∧ shiftIn q.rreg (f.getLsbD (42 - n)) = f >>> (42 - n) := by
  subst hq
  obtain ⟨k, rfl⟩ := Nat.exists_eq_add_of_le h4
  have hbody := hf.body k (by omega)
  rw [frameProgress_body h4, show 43 - (4 + k) = 38 - k + 1 by omega, show 42 - (4 + k) = 38 - k by omega]
  rw [show 39 - k = 38 - k + 1 by omega] at hbody
  exact ⟨rfl, hbody, shiftIn_ushiftRight_succ f _⟩

/-- R211, R212, R215: every pulse of a frame but the last takes the decoder one on, with NO_FRAME. -/
theorem exec_radioPulse_frameProgress {n : Nat} {l : Lacrosse} {s : State} (hp : s.port = .consumer) (hn : n < 42)
    (hl : s.lacrosse = frameProgress l f n) :
    exec (.radioPulse (ds.getD n 0)) s = .next ((s.setLacrosse (frameProgress l f (n + 1))).respond .noFrame 0 0) := by
  rcases (by omega : n < 3 ∨ n = 3 ∨ 4 ≤ n) with h | rfl | h
  · rw [frameProgress_preamble h.le] at hl
    rw [frameProgress_preamble (show n + 1 ≤ 3 from h), exec, execRadioPulse_sync hp (by simpa [hl] using h) (hf.sync n h), hl]
  · rw [frameProgress_preamble le_rfl] at hl
    rw [frameProgress_body le_rfl, exec, execRadioPulse_first hp (by rw [hl]) hf.first.1]
    simp only [hf.first.2, ushiftRight_of_top_bit hf.first.2]
  · obtain ⟨hrs, hbit, hreg⟩ := hf.body_pulse h (by omega) hl
    rw [frameProgress_body (by omega), Nat.succ_sub_succ 42 n, exec, execRadioPulse_body hp (by omega) (by omega) hbit, hreg, hrs]

/-- R222: the first `n` pulses of a frame answer NO_FRAME, as long as the frame is not complete. -/
theorem perform_take_frame {n : Nat} {s : State} (h0 : s.lacrosse.rs = 0) (hn : n ≤ 42) :
    perform (radioPulses (ds.take n)) (s.present .consumer s.pending) = .next { s with
      port := .consumer
      lacrosse := frameProgress s.lacrosse f n
      responses := List.replicate n (.consumer, ⟨.noFrame, 0, 0⟩) ++ s.responses } := by
  induction n with
  | zero =>
    have hprogress : frameProgress s.lacrosse f 0 = s.lacrosse := by rw [frameProgress_preamble (Nat.zero_le 3), ← h0]
    rw [hprogress]
    rfl
  | succ n ih =>
    exact perform_take_succ (by rw [hf.length]; omega) (ih (by omega)) (exec_radioPulse_frameProgress hf rfl (by omega) rfl)

/-- R218: after 42 pulses of a frame the last bit completes it, with the whole frame in the accumulator. -/
theorem exec_radioPulse_frameEnd {l : Lacrosse} {s : State} (hp : s.port = .consumer) (hl : s.lacrosse = frameProgress l f 42) :
    exec (.radioPulse (ds.getD 42 0)) s = .next (completeFrame f (s.setLacrosse ⟨0, f.getLsbD 0, f⟩)) := by
  obtain ⟨hrs, hbit, hreg⟩ := hf.body_pulse (by decide) (by decide) hl
  rw [exec_radioPulse_last hp hrs hbit, hreg, BitVec.ushiftRight_zero]

end

/-- Settles O46: 42 pulses are answered by NO_FRAME, and the last bit completes the frame. -/
theorem radioFrameIsDecoded : Obligations.RadioFrameIsDecoded := by
  intro f ds s h0 hf
  have hne : ds ≠ [] := List.ne_nil_of_length_pos (by rw [hf.length]; decide)
  have hrun := perform_take_succ (by rw [hf.length]; decide) (perform_take_frame hf h0 le_rfl)
    (exec_radioPulse_frameEnd (l := s.lacrosse) hf rfl rfl)
  rw [List.take_of_length_le hf.length.le, setLacrosse_completeFrame rfl] at hrun
  exact (perform_radioPulses_present hne s).trans hrun

end Sys2Proof.Machine
end

section
/-! PROOFS. The frame encoder: its answer byte by byte, and the round trip through the canonical pulses to the decoder
(45_frame_encode.md R240, R243). -/
namespace Sys2Proof.Machine

/-! ### The answer -/

/-- R240: FRAME_ENCODE answers its word and the checksum of its word. -/
theorem exec_frameEncode {s : State} (hp : s.port = .consumer) (sync : Byte) (p : Word) :
    exec (.frameEncode sync p) s =
      .next (s.respond .ok (encodedWord s.cfg sync p) (zext32 (checksumOf s.cfg (encodedWord s.cfg sync p)))) :=
  onPort_here hp _

/-- R240, D30: the bytes of the low 24 bits of a payload are its lower three bytes. -/
theorem byteOf_payload (p : Word) {k : Nat} (hk : k < 3) : byteOf (p.extractLsb' 0 24) k = p.extractLsb' (8 * k) 8 := by
  rw [byteOf, BitVec.extractLsb'_extractLsb'_of_le (by omega)]

/-- R240, R135: the sync byte stands above the encoded payload, whose bytes 1 and 2 are exchanged. -/
theorem encodedWord_eq_bytes (cfg : Params) (sync : Byte) (p : Word) :
    encodedWord cfg sync p = sync ++ (tableAt cfg.subst (p.extractLsb' 8 8) ++ tableAt cfg.subst (p.extractLsb' 16 8) ++
      tableAt cfg.subst (p.extractLsb' 0 8)) := by
  rw [encodedWord, subst24EncOf_eq_bytes, byteOf_payload p (by decide), byteOf_payload p (by decide), byteOf_payload p (by decide)]

/-- Settles O51: the answer of FRAME_ENCODE, its word written out. -/
theorem frameEncodeAnswersWordAndChecksum : Obligations.FrameEncodeAnswersWordAndChecksum := by
  intro sync p s hp
  refine ⟨_, rfl, ?_⟩
  rw [exec_frameEncode hp, State.respond_of_port hp, encodedWord_eq_bytes, checksumOf]

/-! ### The canonical pulses of a frame -/

/-- R213, R223: a canonical duration is decoded to its bit. -/
theorem bodyBit_canonicalDuration (prev b : Bool) : bodyBit prev (canonicalDuration prev b) = some b := by
  cases prev <;> cases b <;> decide

/-- R223: the canonical pulse of each body bit, after the four pulses before the body. -/
theorem canonicalPulses_getD_body (f : Frame) {k : Nat} (hk : k < 39) :
    (canonicalPulses f).getD (4 + k) 0 = canonicalDuration (f.getLsbD (39 - k)) (f.getLsbD (38 - k)) := by
  rw [canonicalPulses, List.getD_append_right _ _ _ _ (by simp), List.getD_eq_getElem _ _ (by simpa using hk)]
  simp

/-- R223: the canonical pulses of a frame that begins with a 1 carry it: the sync and first-bit durations are in their windows, and a body
duration is chosen by the two bits that its window is chosen by. -/
theorem carriesFrame_canonicalPulses {f : Frame} (h : f.getLsbD 39 = true) : CarriesFrame f (canonicalPulses f) where
  length := by simp [canonicalPulses]
  sync i hi := by
    have hsync : (canonicalPulses f).getD i 0 = 1600 := by interval_cases i <;> rfl
    rw [hsync]
    decide
  first := ⟨by rw [show (canonicalPulses f).getD 3 0 = 1300 from rfl]; decide, h⟩
  body k hk := by rw [canonicalPulses_getD_body f hk, bodyBit_canonicalDuration]

/-! ### The round trip -/

/-- R218, R240: the payload of a frame put together from a word and a checksum. -/
theorem framePayload_append (v : Word) (c : Byte) : framePayload (v ++ c) = v := BitVec.extractLsb'_append_eq_left

/-- R218, R240: the checksum of a frame put together from a word and a checksum. -/
theorem frameChecksum_append (v : Word) (c : Byte) : frameChecksum (v ++ c) = c := BitVec.extractLsb'_append_eq_right

/-- R217, R240: the top bit of an encoded word is that of its sync byte. -/
theorem encodedWord_getLsbD_top (cfg : Params) (sync : Byte) (p : Word) : (encodedWord cfg sync p).getLsbD 31 = sync.getLsbD 7 :=
  BitVec.getLsbD_append.trans (if_neg (by decide))

/-- R218, R222: from `RS = 0` the pulses of a frame whose checksum verifies are answered by its payload. -/
theorem perform_frame_ok {f : Frame} {ds : List Sample} {s : State} (h0 : s.lacrosse.rs = 0) (hf : CarriesFrame f ds)
    (hcheck : frameChecksum f = checksumOf s.cfg (framePayload f)) :
    ∃ t, perform (radioPulses ds) s = .next t ∧
      t.responses = (.consumer, ⟨.ok, framePayload f, 0⟩) :: (List.replicate 42 (.consumer, ⟨.noFrame, 0, 0⟩) ++ s.responses) := by
  refine ⟨_, radioFrameIsDecoded f ds s h0 hf, ?_⟩
  exact congrArg (fun r => (Port.consumer, r) :: _) (if_pos hcheck)

/-- R218, R223: from `RS = 0` the canonical pulses of a word with its top bit set and of its checksum are answered by the word. -/
theorem perform_canonicalPulses_ok {s : State} {v : Word} (h0 : s.lacrosse.rs = 0) (htop : v.getLsbD 31 = true) :
    ∃ t, perform (radioPulses (canonicalPulses (v ++ checksumOf s.cfg v))) s = .next t ∧
      t.responses = (.consumer, ⟨.ok, v, 0⟩) :: (List.replicate 42 (.consumer, ⟨.noFrame, 0, 0⟩) ++ s.responses) := by
  have hpayload := framePayload_append v (checksumOf s.cfg v)
  have hbegins : (v ++ checksumOf s.cfg v : Frame).getLsbD 39 = true := by rw [← framePayload_getLsbD_top, hpayload, htop]
  have hrun := perform_frame_ok h0 (carriesFrame_canonicalPulses hbegins) (by rw [frameChecksum_append, hpayload])
  rwa [hpayload] at hrun

/-- Settles O48: the checksum FRAME_ENCODE answers is the one the decoder verifies, and it leaves the decoder at `RS = 0`. -/
theorem encodedFrameIsDecoded : Obligations.EncodedFrameIsDecoded := by
  intro sync p s h0 htop
  have hencode := exec_frameEncode (s := s.present .consumer s.pending) rfl sync p
  obtain ⟨t, ht, hresp⟩ := perform_canonicalPulses_ok
    (s := (s.present .consumer s.pending).respond .ok (encodedWord s.cfg sync p) (zext32 (checksumOf s.cfg (encodedWord s.cfg sync p))))
    h0 ((encodedWord_getLsbD_top s.cfg sync p).trans htop)
  exact ⟨_, _, t, (perform_cons_next hencode _).trans ht, hresp⟩

end Sys2Proof.Machine
end

section
/-! PROOFS. The reading router: ROUTE in one equation, of which forwarding on change, the independence of the pairs and the suppression of a
repeated reading are readings (46_router.md R250 to R257). -/
namespace Sys2Proof.Machine

/-! ### What is remembered -/

/-- R253: a pair suppresses `v` where it has been forwarded and its last value is `v`. -/
theorem Remembered.eq_forwarded_iff {m : Remembered} {v : Word} : m = ⟨v, true⟩ ↔ m.has = true ∧ v = m.last := by
  rw [Remembered.mk.injEq, and_comm, eq_comm (a := v)]

/-- R256: remembering of a pair what is remembered of it already changes nothing. -/
@[simp] theorem Router.setPair_pair (q : Router) (src : Source) (kind : Kind) : q.setPair src kind (q.pair src kind) = q := by
  cases src <;> cases kind <;> rfl

/-! ### What ROUTE does -/

/-- R253: how a corrected value `v` is answered, by what is remembered of its pair. -/
def routeStatus (m : Remembered) (v : Word) : Status := if m = ⟨v, true⟩ then .suppressed else .forwarded

theorem routeStatus_of_eq {m : Remembered} {v : Word} (h : m = ⟨v, true⟩) : routeStatus m v = .suppressed := if_pos h

theorem routeStatus_of_ne {m : Remembered} {v : Word} (h : m ≠ ⟨v, true⟩) : routeStatus m v = .forwarded := if_neg h

/-- The state a ROUTE of the corrected value `v` leaves (R250): a suppressed value is the one remembered already, so `v` is remembered of the
pair in either case, and only the status differs. -/
def routed (src : Source) (kind : Kind) (v : Word) (s : State) : State :=
  (s.setRouter (s.router.setPair src kind ⟨v, true⟩)).respond (routeStatus (s.router.pair src kind) v) v (pairCode src kind)

section
variable (src : Source) (kind : Kind) (v raw : Word) (s : State)

@[simp] theorem routed_router : (routed src kind v s).router = s.router.setPair src kind ⟨v, true⟩ := rfl

@[simp] theorem routed_responses : (routed src kind v s).responses =
    (s.port, ⟨routeStatus (s.router.pair src kind) v, v, pairCode src kind⟩) :: s.responses := rfl

variable {s}

/-- R250, R253: ROUTE on its port, forwarded or suppressed. -/
theorem exec_route (hp : s.port = .consumer) :
    exec (.route src kind raw) s = .next (routed src kind (corrected src kind raw) s) := by
  rw [exec, execRoute, onPort_here hp, routed]
  by_cases hheld : s.router.pair src kind = ⟨corrected src kind raw, true⟩
  · rw [routeStatus_of_eq hheld, ← hheld, Router.setPair_pair, if_neg (by simp [hheld])]
    rfl
  · rw [routeStatus_of_ne hheld, if_pos]
    rwa [Remembered.eq_forwarded_iff, not_and_or, Bool.not_eq_true] at hheld

/-- R98, R99: on the producer port a ROUTE is illegal. -/
theorem exec_route_elsewhere (hp : s.port ≠ .consumer) : exec (.route src kind raw) s = .next (s.respond .illegal 0 0) :=
  onPort_elsewhere hp _

end

/-- Settles O52: the equation of ROUTE in the two cases of its status. -/
theorem routeCorrectsAndForwardsOnChange : Obligations.RouteCorrectsAndForwardsOnChange := by
  intro src kind raw val code s hp hval hcode
  obtain rfl : val = corrected src kind raw := by rw [hval]; cases src <;> cases kind <;> rfl
  obtain rfl : code = pairCode src kind := by rw [hcode]; cases src <;> cases kind <;> rfl
  refine ⟨_, exec_route src kind raw hp, ?_, fun a b hab => Router.setPair_other _ hab _, rfl, rfl, rfl, rfl, rfl, rfl, rfl, rfl, rfl⟩
  rw [routed_router, routed_responses, hp]
  by_cases hheld : s.router.pair src kind = ⟨corrected src kind raw, true⟩
  · rw [if_pos (Remembered.eq_forwarded_iff.mp hheld), routeStatus_of_eq hheld, ← hheld, Router.setPair_pair]
    exact ⟨rfl, rfl⟩
  · rw [if_neg (mt Remembered.eq_forwarded_iff.mpr hheld), routeStatus_of_ne hheld]
    exact ⟨Router.setPair_same _ src kind _, rfl⟩

/-! ### The four pairs -/

/-- R256: a ROUTE does the same whatever is remembered of another pair, and keeps it. -/
theorem routed_setPair_other {src a : Source} {kind b : Kind} (h : ¬ (a = src ∧ b = kind)) (v : Word) (m : Remembered) (s : State) :
    routed src kind v (s.setRouter (s.router.setPair a b m)) =
      (routed src kind v s).setRouter ((routed src kind v s).router.setPair a b m) := by
  have hpair : (s.router.setPair a b m).pair src kind = s.router.pair src kind :=
    Router.setPair_other _ (fun hs => h ⟨hs.1.symm, hs.2.symm⟩) m
  rw [routed, State.setRouter_router, hpair, Router.setPair_comm _ h]
  rfl

/-- Settles O53: on the consumer port by the equation of ROUTE; on the other a ROUTE does not reach the router. -/
theorem routedPairsAreIndependent : Obligations.RoutedPairsAreIndependent := by
  intro src a kind b raw m s t hab h
  have hport : (s.setRouter (s.router.setPair a b m)).port = s.port := rfl
  by_cases hp : s.port = .consumer
  · rw [exec_route src kind raw hp] at h
    cases h
    rw [exec_route src kind raw (hport.trans hp), routed_setPair_other hab]
    exact ⟨Router.setPair_other _ hab _, rfl⟩
  · rw [exec_route_elsewhere src kind raw hp] at h
    cases h
    exact ⟨rfl, exec_route_elsewhere src kind raw (hport ▸ hp)⟩

/-! ### One ROUTE after another -/

/-- R60: a ROUTE first, then the rest. -/
theorem perform_route (src : Source) (kind : Kind) (raw : Word) (cs : List (Port × Instr)) (s : State) :
    perform ((.consumer, .route src kind raw) :: cs) s =
      perform cs (routed src kind (corrected src kind raw) (s.present .consumer s.pending)) :=
  perform_cons_next (exec_route src kind raw rfl) cs

/-- Settles O54: from the first ROUTE on the pair holds `x`, so the second is suppressed, and `y` is not what it holds. -/
theorem repeatedReadingIsForwardedOnce : Obligations.RepeatedReadingIsForwardedOnce := by
  intro src kind a b c s hab hca
  have hsame : routeStatus ⟨corrected src kind a, true⟩ (corrected src kind a) = .suppressed := routeStatus_of_eq rfl
  have hchanged : routeStatus ⟨corrected src kind a, true⟩ (corrected src kind c) = .forwarded :=
    routeStatus_of_ne (by simp [hca.symm])
  rw [perform_route, perform_route, perform_route, perform_nil, ← hab]
  refine ⟨_, rfl, ?_⟩
  simp only [routed_responses, routed_router, Router.setPair_same, State.present_router, State.present_port, State.present_responses,
    hsame, hchanged]
  rfl

end Sys2Proof.Machine
end

section
/-! PROOFS. State access: READ_STATE by what its selector names (47_state_access.md R270 to R272): the element of a scalar selector, the slot or entry
of an array selector, nothing where the static check refuses the pair. -/
namespace Sys2Proof.Machine

/-! ### What a selector names -/

/-- R271: the selector of the slots of a ring. -/
def ringSelector : Channel → Byte
  | .dht => 0x20
  | .radio => 0x21

/-- R271: the slot selector of a ring names the slots inside it. -/
theorem selectElement_ring (cfg : Params) (ch : Channel) (idx : Sample) :
    selectElement cfg (ringSelector ch) idx = if idx.toNat < capOf cfg ch then some (.slot ch idx.toNat) else none := by
  cases ch <;> rfl

/-- R271: the frame selector names the entries of the frame buffer. -/
theorem selectElement_frame (cfg : Params) (idx : Sample) :
    selectElement cfg 0x22 idx = if idx.toNat < frameLength then some (.entry idx.toNat) else none := rfl

/-- R271: no selector stands twice among the scalar ones. -/
theorem lookup_scalarElements : ∀ p ∈ scalarElements, scalarElements.lookup p.1 = some p.2 := by decide

/-- R271: a scalar selector with index 0 names its element. -/
theorem selectElement_scalar {sel8 : Byte} {e : Element} (h : (sel8, e) ∈ scalarElements) (cfg : Params) :
    selectElement cfg sel8 0 = some e := by
  simp [selectElement, lookup_scalarElements _ h]

/-- What is named under a condition is named where the condition is met. -/
theorem guard_eq_some {p : Prop} [Decidable p] {e e' : Element} (h : (if p then some e' else none) = some e) : p ∧ e = e' := by
  obtain ⟨hp, he⟩ := Option.ite_none_right_eq_some.mp h
  exact ⟨hp, (Option.some.inj he).symm⟩

/-- R271: everything a pair can name: a scalar element with index 0, a slot inside a ring, an entry of the frame buffer. -/
theorem selectElement_cases {cfg : Params} {sel8 : Byte} {idx : Sample} {e : Element} (h : selectElement cfg sel8 idx = some e) :
    ((sel8, e) ∈ scalarElements ∧ idx = 0) ∨
    (∃ ch, sel8 = ringSelector ch ∧ e = .slot ch idx.toNat ∧ idx.toNat < capOf cfg ch) ∨
    (sel8 = 0x22 ∧ e = .entry idx.toNat ∧ idx.toNat < frameLength) := by
  unfold selectElement at h
  split at h
  · next hlookup =>
    obtain ⟨l, l', hl, _⟩ := List.lookup_eq_some_iff.mp hlookup
    obtain ⟨hidx, rfl⟩ := guard_eq_some h
    exact .inl ⟨by simp [hl], hidx⟩
  · split at h
    · next hsel => exact .inr (.inl ⟨.dht, hsel, (guard_eq_some h).symm⟩)
    · split at h
      · next hsel => exact .inr (.inl ⟨.radio, hsel, (guard_eq_some h).symm⟩)
      · split at h
        · next hsel => exact .inr (.inr ⟨hsel, (guard_eq_some h).symm⟩)
        · cases h

/-! ### The value of an element -/

section
variable {s : State}

theorem elementValue_slot_written {ch : Channel} {j : Nat} {d : Sample} (h : Memory.read (s.ring ch).slots j = some d) :
    elementValue s (.slot ch j) = .ok (zext32 d) := by
  simp only [elementValue, ringRead, h]

theorem elementValue_slot_unwritten {ch : Channel} {j : Nat} (h : Memory.read (s.ring ch).slots j = none) :
    elementValue s (.slot ch j) = .error (.unwrittenSlot ch j) := by
  simp only [elementValue, ringRead, h]

theorem elementValue_entry_written {i : Nat} {d : Sample} (h : Memory.read s.dht.fb i = some d) :
    elementValue s (.entry i) = .ok (zext32 d) := by
  simp only [elementValue, h]

theorem elementValue_entry_unwritten {i : Nat} (h : Memory.read s.dht.fb i = none) :
    elementValue s (.entry i) = .error (.unwrittenEntry i) := by
  simp only [elementValue, h]

/-- R272: only a slot never written has no value. -/
theorem slot_unwritten_of_error {ch : Channel} {j : Nat} {f : Fault} (h : elementValue s (.slot ch j) = .error f) :
    Memory.read (s.ring ch).slots j = none := by
  cases hr : Memory.read (s.ring ch).slots j with
  | none => rfl
  | some d => cases (elementValue_slot_written hr).symm.trans h

/-- R272: only an entry never written has no value. -/
theorem entry_unwritten_of_error {i : Nat} {f : Fault} (h : elementValue s (.entry i) = .error f) : Memory.read s.dht.fb i = none := by
  cases hr : Memory.read s.dht.fb i with
  | none => rfl
  | some d => cases (elementValue_entry_written hr).symm.trans h

/-- R271: every scalar element has a value. -/
theorem elementValue_scalar (s : State) : ∀ p ∈ scalarElements, ∃ v, elementValue s p.2 = .ok v := by
  simp [scalarElements, elementValue]

/-! ### What READ_STATE answers -/

variable (hp : s.port = .consumer) {sel8 : Byte} {idx : Sample} {e : Element} (hsel : selectElement s.cfg sel8 idx = some e)
include hp hsel

/-- R270: READ_STATE of an element with a value answers it. -/
theorem exec_readState_of_value {v : Word} (hv : elementValue s e = .ok v) :
    exec (.readState sel8 idx) s = .next (s.respond .ok v 0) := by
  simp only [exec, execReadState, onPort_here hp, hsel, hv]

/-- R272: READ_STATE of an element without a value stops the model. -/
theorem exec_readState_of_error {f : Fault} (hf : elementValue s e = .error f) : exec (.readState sel8 idx) s = .fault f := by
  simp only [exec, execReadState, onPort_here hp, hsel, hf]

end

/-- Settles O55: the values stated are those of the scalar elements, selector by selector. -/
theorem readStateAnswersScalars : Obligations.ReadStateAnswersScalars := by
  intro s hp sel8 v hmem
  have hvalue : (sel8, (.ok v : Except Fault Word)) ∈ scalarElements.map fun p => (p.1, elementValue s p.2) :=
    List.mem_map_of_mem (f := fun q : Byte × Word => (q.1, (.ok q.2 : Except Fault Word))) hmem
  obtain ⟨⟨_, e⟩, he, hpair⟩ := List.mem_map.mp hvalue
  obtain ⟨rfl, hv⟩ := Prod.mk.inj hpair
  rw [exec_readState_of_value hp (selectElement_scalar he s.cfg) hv, State.respond_of_port hp]

/-- Settles O56: each array selector names an element inside its array, which has a value where it has been written. -/
theorem readStateAnswersEntries : Obligations.ReadStateAnswersEntries := by
  intro s sel8 idx m n f hp hsel8
  obtain ⟨e, hsel, hwritten, hunwritten⟩ : ∃ e, selectElement s.cfg sel8 idx = (if idx.toNat < n then some e else none) ∧
      (∀ d, Memory.read m idx.toNat = some d → elementValue s e = .ok (d.setWidth 32)) ∧
      (Memory.read m idx.toNat = none → elementValue s e = .error f) := by
    rcases hsel8 with ⟨rfl, rfl, rfl, rfl⟩ | ⟨rfl, rfl, rfl, rfl⟩ | ⟨rfl, rfl, rfl, rfl⟩
    · exact ⟨_, selectElement_ring s.cfg .dht idx, fun d => elementValue_slot_written (ch := .dht), elementValue_slot_unwritten (ch := .dht)⟩
    · exact ⟨_, selectElement_ring s.cfg .radio idx, fun d => elementValue_slot_written (ch := .radio),
        elementValue_slot_unwritten (ch := .radio)⟩
    · exact ⟨_, selectElement_frame s.cfg idx, fun d => elementValue_entry_written, elementValue_entry_unwritten⟩
  refine ⟨fun d hlt hd => ?_, fun hlt hnone => ?_, fun hge => ?_⟩
  · rw [exec_readState_of_value hp (hsel.trans (if_pos hlt)) (hwritten d hd), State.respond_of_port hp]
  · exact exec_readState_of_error hp (hsel.trans (if_pos hlt)) (hunwritten hnone)
  · rw [exec_readState_of_select_none (hsel.trans (if_neg hge.not_gt)), raiseIllegal, State.respond_of_port hp]

/-! ### The static check -/

/-- R271: the selectors of the static check are those of the scalar elements. -/
theorem scalarSelectors_eq : scalarSelectors = scalarElements.map Prod.fst := rfl

/-- R271: a pair that names an element in some build passes the static check. -/
theorem selectorWellFormed_of_select {cfg : Params} {sel8 : Byte} {idx : Sample} {e : Element}
    (h : selectElement cfg sel8 idx = some e) : selectorWellFormed sel8 idx = true := by
  rcases selectElement_cases h with ⟨he, rfl⟩ | ⟨ch, rfl, -, -⟩ | ⟨rfl, -, hlt⟩
  · have hscalar : scalarSelectors.contains sel8 = true := by
      rw [scalarSelectors_eq, List.contains_iff_mem]
      exact List.mem_map_of_mem (f := Prod.fst) he
    rw [selectorWellFormed, if_pos hscalar, beq_self_eq_true]
  · cases ch <;> rfl
  · have hle : idx.toNat ≤ 42 := Nat.le_of_lt_succ hlt
    simpa [selectorWellFormed, scalarSelectors, ringSelectors] using hle

/-- R271: a pair the static check refuses names nothing in any build. -/
theorem selectElement_of_illFormed {sel8 : Byte} {idx : Sample} (h : selectorWellFormed sel8 idx = false) (cfg : Params) :
    selectElement cfg sel8 idx = none :=
  Option.eq_none_iff_forall_ne_some.mpr fun _ he => by simp [selectorWellFormed_of_select he] at h

/-- R270: READ_STATE is the only command the static check can refuse. -/
theorem exists_readState_of_illFormed {i : Instr} (h : i.wellFormed = false) :
    ∃ sel8 idx, i = .readState sel8 idx ∧ selectorWellFormed sel8 idx = false := by
  cases i with
  | readState sel8 idx => exact ⟨sel8, idx, rfl, h⟩
  | _ => cases h

/-- Settles O57: the command is a READ_STATE, and its pair names nothing. -/
theorem illFormedReadStateIsIllegal : Obligations.IllFormedReadStateIsIllegal := by
  intro i s h
  obtain ⟨sel8, idx, rfl, hill⟩ := exists_readState_of_illFormed h
  exact exec_readState_of_select_none (selectElement_of_illFormed hill s.cfg)

end Sys2Proof.Machine
end

section
/-! PROOFS. Reset: its edges, the values it leaves, the inverse table it builds and the invariant it establishes
(70_reset_and_hazards.md R340 to R343). -/
namespace Sys2Proof.Machine

/-! ### One equation of the step per input that is no command run -/

section
variable {s : State} {rest : List Input}

/-- Log 2: with nothing presented the core keeps its state. -/
theorem step_idle (h : s.pending = []) : step s = .next s := by
  rw [step, h]

/-- R343: reset begins. -/
theorem step_resetBegin (h : s.pending = .resetBegin :: rest) : step s = .next (beginReset (s.take rest)) := by
  rw [step, h]

/-- R340: reset ends. -/
theorem step_resetEnd (h : s.pending = .resetEnd :: rest) : step s = .next (endReset (s.take rest)) := by
  rw [step, h]

/-- U3: a command during reset is refused. -/
theorem step_command_inReset {p : Port} {w : Command} (h : s.pending = .command p w :: rest) (hr : s.inReset = true) :
    step s = .refused .commandDuringReset := by
  simp [step, h, hr]

end

/-- Settles O8: one equation of the step per input, the end of a reset by whether one is in progress. -/
theorem resetInputsReinitialise : Obligations.ResetInputsReinitialise := by
  intro s rest
  refine ⟨step_resetBegin, fun h hr => ?_, fun h hr => ?_, fun p w => step_command_inReset, step_idle⟩
  · rw [step_resetEnd h, endReset_inReset (s.take rest) hr]
    rfl
  · rw [step_resetEnd h, endReset_idle (s.take rest) hr]
    rfl

/-! ### The state after reset -/

section
variable (cfg : Params)

/-- R340: both rings at 0, no slot written. -/
@[simp] theorem State.resetWith_ring (ch : Channel) : (State.resetWith cfg).ring ch = ⟨0, 0, [], 0⟩ := by cases ch <;> rfl

/-- R340: the frame buffer not written, its count at 0. -/
@[simp] theorem State.resetWith_dht : (State.resetWith cfg).dht = ⟨[], 0⟩ := rfl

/-- R340: no pair forwarded. -/
@[simp] theorem State.resetWith_pair (src : Source) (kind : Kind) : (State.resetWith cfg).router.pair src kind = ⟨0, false⟩ := by
  cases src <;> cases kind <;> rfl

/-- R341: `INV` as the build has it. -/
@[simp] theorem State.resetWith_inv : (State.resetWith cfg).inv = inverseTable cfg.invMode cfg.subst := rfl

end

/-- Settles O9: the table of R340, element by element. -/
theorem resetLeavesTheTabledValues : Obligations.ResetLeavesTheTabledValues := by
  intro cfg
  refine ⟨fun ch => ?_, ?_, by simp, rfl, State.resetWith_pair cfg, rfl, rfl⟩
  · simp
  · simp

/-- Settles O10: the true inverse undoes the permutation `SUBST`; the zero table is 0 everywhere. -/
theorem resetBuildsInverseTable : Obligations.ResetBuildsInverseTable := by
  intro cfg hcfg
  obtain ⟨-, hperm⟩ := hcfg
  refine ⟨fun hmode i => ?_, fun hmode b => ?_⟩
  · rw [State.resetWith_inv, hmode]
    exact hperm.tableAt_eq_iff.mp rfl
  · rw [State.resetWith_inv, hmode]
    exact tableAt_zeroTable b

/-- Settles O11: the machine's own build is one R343 allows. -/
theorem resetMeetsInvariant : Obligations.ResetMeetsInvariant :=
  ⟨State.Inv.resetWith params_wf, fun _ => State.Inv.resetWith⟩

end Sys2Proof.Machine
end

section
/-! PROOFS. Safety: what stops the model (93_implementation_defined.md U1 to U3, 60_exceptions.md R301). Under the invariant every command but
READ_STATE completes; a step stops where its command stops, and refuses only a command during reset. -/
namespace Sys2Proof.Machine

/-! ### Commands that complete -/

/-- R62, U1: where the indices do not meet, the slot of the read index has been written. -/
theorem RingInv.read_slot_isSome {cfg : Params} {ch : Channel} {q : Ring} (h : RingInv (capOf cfg ch) q) (hne : q.r ≠ q.w) :
    (Memory.read q.slots (slotOf cfg ch q.r)).isSome := by
  rcases h.published with hall | ⟨hw, hr, hbelow⟩
  · exact hall _ (slotOf_lt cfg ch q.r)
  · have hlt : q.r.toNat < q.w.toNat := lt_of_le_of_ne hr fun he => hne (BitVec.eq_of_toNat_eq he)
    rw [slotOf_eq_mod, Nat.mod_eq_of_lt (hlt.trans hw)]
    exact hbelow _ hlt

/-- R62, U1: POP of a sound ring completes. -/
theorem exec_pop_completes {ch : Channel} {s : State} (h : RingInv (capOf s.cfg ch) (s.ring ch)) (hp : s.port = .consumer) :
    ∃ t, exec (.pop ch) s = .next t := by
  by_cases heq : (s.ring ch).r = (s.ring ch).w
  · exact ⟨_, exec_pop_empty hp heq⟩
  · obtain ⟨d, hd⟩ := Option.isSome_iff_exists.mp (h.read_slot_isSome heq)
    exact ⟨_, execPop_next hp heq hd⟩

/-- Settles O24: the invariant makes every ring sound. -/
theorem popCompletesUnderInvariant : Obligations.PopCompletesUnderInvariant :=
  fun ch _ hs hp => exec_pop_completes (hs.rings ch) hp

/-- A consumer command that completes on its port completes on both: on the other it is ILLEGAL (R99). -/
theorem completes_of_consumer {i : Instr} {s : State} (hacc : acceptedOn .producer i = false)
    (h : s.port = .consumer → ∃ t, exec i s = .next t) : ∃ t, exec i s = .next t := by
  cases hp : s.port with
  | producer => exact ⟨_, exec_wrongPort (hp ▸ hacc)⟩
  | consumer => exact h hp

/-- A body that completes does so behind the port check. -/
theorem onPort_completes (p : Port) (s t : State) : ∃ u, onPort p s (.next t) = .next u := by
  by_cases hp : s.port = p
  · exact ⟨t, onPort_here hp _⟩
  · exact ⟨_, onPort_elsewhere hp _⟩

/-- U1, U2: in a state that meets the invariant every command but READ_STATE completes, on either port. -/
theorem exec_completes {i : Instr} {s : State} (hs : s.Inv) (hi : ∀ sel8 idx, i ≠ .readState sel8 idx) : ∃ t, exec i s = .next t := by
  cases i with
  | nop => exact ⟨_, rfl⟩
  | pop ch => exact completes_of_consumer rfl fun hp => exec_pop_completes (hs.rings ch) hp
  | dhtDecode => exact completes_of_consumer rfl fun hp => exec_dhtDecode_completes hs.dht hp
  | readState sel8 idx => exact absurd rfl (hi sel8 idx)
  | _ => exact onPort_completes _ _ _

/-- No command is refused: each answers or faults (R95). -/
theorem exec_ne_refused (i : Instr) (s : State) (r : Refusal) : exec i s ≠ .refused r := by
  obtain ⟨l, ⟨f, hf⟩ | ⟨u, a, _, hu⟩⟩ := exec_answers_once i s
  · exact fun h => by cases (hf s.responses).symm.trans h
  · exact fun h => by cases (hu s.responses).symm.trans h

/-! ### Commands that stop -/

/-- The slot or entry an array selector names has not been written since reset (R272). -/
def ReadsUnwritten (s : State) (sel8 : Byte) (idx : Sample) : Prop :=
  (sel8 = 0x20 ∧ Memory.read s.ring0.slots idx.toNat = none) ∨
  (sel8 = 0x21 ∧ Memory.read s.ring1.slots idx.toNat = none) ∨
  (sel8 = 0x22 ∧ Memory.read s.dht.fb idx.toNat = none)

/-- R272: a pair that names an element without a value names a slot or an entry never written. -/
theorem readsUnwritten_of_error {s : State} {sel8 : Byte} {idx : Sample} {e : Element} {f : Fault}
    (hsel : selectElement s.cfg sel8 idx = some e) (hf : elementValue s e = .error f) : ReadsUnwritten s sel8 idx := by
  rcases selectElement_cases hsel with ⟨he, -⟩ | ⟨ch, rfl, rfl, -⟩ | ⟨rfl, rfl, -⟩
  · obtain ⟨v, hv⟩ := elementValue_scalar s _ he
    cases hv.symm.trans hf
  · cases ch with
    | dht => exact .inl ⟨rfl, slot_unwritten_of_error hf⟩
    | radio => exact .inr (.inl ⟨rfl, slot_unwritten_of_error hf⟩)
  · exact .inr (.inr ⟨rfl, entry_unwritten_of_error hf⟩)

/-- R272: a READ_STATE that stops the model was issued on the consumer port and names a slot or an entry never written. -/
theorem exec_readState_fault {s : State} {sel8 : Byte} {idx : Sample} {f : Fault} (h : exec (.readState sel8 idx) s = .fault f) :
    s.port = .consumer ∧ ReadsUnwritten s sel8 idx := by
  cases hp : s.port with
  | producer => cases (exec_wrongPort (by rw [hp]; rfl)).symm.trans h
  | consumer =>
    rcases execReadState_cases sel8 idx hp with ⟨_, he⟩ | ⟨e, hsel, ⟨v, _, he⟩ | ⟨f, hf, _⟩⟩
    · cases he.symm.trans h
    · cases he.symm.trans h
    · exact ⟨rfl, readsUnwritten_of_error hsel hf⟩

/-- U1, U2: under the invariant a command that stops the model is a READ_STATE. -/
theorem exec_fault {i : Instr} {s : State} {f : Fault} (hs : s.Inv) (h : exec i s = .fault f) :
    ∃ sel8 idx, i = .readState sel8 idx ∧ s.port = .consumer ∧ ReadsUnwritten s sel8 idx := by
  by_cases hi : ∃ sel8 idx, i = .readState sel8 idx
  · obtain ⟨sel8, idx, rfl⟩ := hi
    exact ⟨sel8, idx, rfl, exec_readState_fault h⟩
  · obtain ⟨t, ht⟩ := exec_completes hs fun sel8 idx he => hi ⟨sel8, idx, he⟩
    cases ht.symm.trans h

/-! ### Steps that stop -/

/-- A word that stops the model is the word of a command that does: a word of no row answers. -/
theorem runWord_fault {w : Command} {s : State} {f : Fault} (h : runWord w s = .fault f) : ∃ i, encode i = w ∧ exec i s = .fault f := by
  cases hw : decodeWord w with
  | ok i => exact ⟨i, decodedWordIsItsEncoding w i hw, (runWord_of_decodeWord_ok hw s).symm.trans h⟩
  | error e => cases (runWord_of_decodeWord_error hw s).symm.trans h

/-- R97: no word is refused. -/
theorem runWord_ne_refused (w : Command) (s : State) (r : Refusal) : runWord w s ≠ .refused r := by
  cases hw : decodeWord w with
  | ok i => rw [runWord_of_decodeWord_ok hw]; exact exec_ne_refused i s r
  | error e => rw [runWord_of_decodeWord_error hw]; exact fun h => by cases h

/-- A step that stops or refuses has a command to run or, during reset, to refuse: the idle step and the edges of reset answer. -/
theorem step_cases_of_ne_next {s : State} (h : ∀ t, step s ≠ .next t) :
    ∃ p w rest, s.pending = .command p w :: rest ∧
      ((s.inReset = false ∧ step s = runWord w (s.present p rest)) ∨ (s.inReset = true ∧ step s = .refused .commandDuringReset)) := by
  cases hpending : s.pending with
  | nil => exact absurd (step_idle hpending) (h s)
  | cons input rest =>
    cases input with
    | resetBegin => exact absurd (step_resetBegin hpending) (h _)
    | resetEnd => exact absurd (step_resetEnd hpending) (h _)
    | command p w =>
      refine ⟨p, w, rest, rfl, ?_⟩
      cases hreset : s.inReset with
      | false => exact .inl ⟨rfl, step_of_pending_command hpending hreset⟩
      | true => exact .inr ⟨rfl, step_command_inReset hpending hreset⟩

/-- Settles O13: a step stops where its command does, which under the invariant is a READ_STATE of something never written; no command is
refused, so a refusal is that of a command during reset. -/
theorem onlyUnwrittenReadBackStops : Obligations.OnlyUnwrittenReadBackStops := by
  intro s hs
  refine ⟨fun f hf => ?_, fun r hr => ?_⟩
  · obtain ⟨p, w, rest, hpending, ⟨-, hrun⟩ | ⟨-, hrefused⟩⟩ := step_cases_of_ne_next (s := s) fun t ht => by cases hf.symm.trans ht
    · obtain ⟨i, rfl, hexec⟩ := runWord_fault (hrun.symm.trans hf)
      obtain ⟨sel8, idx, rfl, hport, hunwritten⟩ := exec_fault (hs.present p rest) hexec
      obtain rfl : p = .consumer := hport
      exact ⟨sel8, idx, rest, hpending, hunwritten⟩
    · cases hrefused.symm.trans hf
  · obtain ⟨p, w, rest, hpending, ⟨-, hrun⟩ | ⟨hreset, -⟩⟩ := step_cases_of_ne_next (s := s) fun t ht => by cases hr.symm.trans ht
    · exact absurd (hrun.symm.trans hr) (runWord_ne_refused w _ r)
    · exact ⟨hreset, p, w, rest, hpending⟩

end Sys2Proof.Machine
end

section
/-! PROOFS. Encoding: the rows of the opcode map exclude each other, and the spec's own words decode (30_encoding.md R84, R97,
95_test_vectors.md). -/
namespace Sys2Proof

/-- Settles O3: every two rows disagree on some bit that both fix, so no word has both patterns. -/
theorem atMostOneRowMatches : Obligations.AtMostOneRowMatches :=
  opcodeMap_patterns_disagree.imp Row.not_both_accept

/-- R97: the word a command has decodes to the command. -/
theorem decodeWord_of_encode_eq {i : Instr} {w : Command} (h : encode i = w) : decodeWord w = .ok i :=
  h ▸ decodeWord_encode i

/-- Settles O5: each word is the one its command has. -/
theorem specWordsDecode : Obligations.SpecWordsDecode := by
  refine ⟨?_, ?_, ?_, ?_, ?_, ?_, ?_, ?_⟩ <;> exact decodeWord_of_encode_eq (by decide)

end Sys2Proof
end

section
/-! PROOFS. LaCrosse: the canonical pulses (44_lacrosse.md R223). -/
namespace Sys2Proof.Machine

/-- Settles O47: each canonical duration lies in the window it arrives at. -/
theorem canonicalPulsesCarryTheFrame : Obligations.CanonicalPulsesCarryTheFrame :=
  fun _ => carriesFrame_canonicalPulses

end Sys2Proof.Machine
end
